-- ==== Sys2Proof/Word.lean ====
section
/-! DEFINITION. The machine word and the register index type (10_state.md R21, 00_scope.md R8). -/

namespace Sys2Proof

/-- A machine word: 8 bits, read as an unsigned value 0..255 (R21, R8). -/
abbrev Byte := BitVec 8

/-- The index of a general register, 0..7 (R21, R25). -/
abbrev RegIdx := Fin 8

/-- The index of the Stack Pointer, register 7 (R24). -/
abbrev spIdx : RegIdx := 7

end Sys2Proof
end

