-- ==== Sys2Proof/Syntax.lean ====
section
/-! DEFINITION. The closed catalogue of 13 instructions: operation tags, formats and instructions (30_encoding.md R71, R75). -/

namespace Sys2Proof

/-- The operation tags of the Dispatch Table, "a closed enumeration" (R98), in the order of R75. -/
inductive Op where
  | ldi | prn | hlt | mul | add | cmp | push | pop | call | ret | jmp | jeq | jne
  deriving DecidableEq, Repr

/-- Every operation tag, once, in the order of R75. -/
def Op.all : List Op :=
  [.ldi, .prn, .hlt, .mul, .add, .cmp, .push, .pop, .call, .ret, .jmp, .jeq, .jne]

/-- The four instruction formats of R71. -/
inductive Format where
  /-- F1 `OP`: the opcode byte alone. -/
  | op
  /-- F2R `OP_R`: the opcode byte and a register byte ra. -/
  | opR
  /-- F3RI `OP_R_I8`: the opcode byte, a register byte ra and an immediate byte. -/
  | opRI
  /-- F3RR `OP_R_R`: the opcode byte and two register bytes ra and rb. -/
  | opRR
  deriving DecidableEq, Repr

/-- An instruction, one constructor per row of the opcode table (R75).
A register field is the WHOLE operand byte, as it stands in memory (R72): a byte 8..255 names no
register, and the instruction that holds it raises InvalidRegister when it runs (R93). -/
inductive Instr where
  /-- Load-Immediate (R110). -/
  | ldi (ra imm : Byte)
  /-- Print-Register (R111). -/
  | prn (ra : Byte)
  /-- Halt (R112). -/
  | hlt
  /-- Multiply (R126). -/
  | mul (ra rb : Byte)
  /-- Add (R127). -/
  | add (ra rb : Byte)
  /-- Compare (R128). -/
  | cmp (ra rb : Byte)
  /-- Push (R141). -/
  | push (ra : Byte)
  /-- Pop (R142). -/
  | pop (ra : Byte)
  /-- Call (R143). -/
  | call (ra : Byte)
  /-- Return (R144). -/
  | ret
  /-- Jump (R160). -/
  | jmp (ra : Byte)
  /-- Jump-If-Equal (R161). -/
  | jeq (ra : Byte)
  /-- Jump-If-Not-Equal (R162). -/
  | jne (ra : Byte)
  deriving DecidableEq, Repr

/-- The operation an instruction performs. -/
def Instr.op : Instr → Op
  | .ldi _ _ => .ldi
  | .prn _ => .prn
  | .hlt => .hlt
  | .mul _ _ => .mul
  | .add _ _ => .add
  | .cmp _ _ => .cmp
  | .push _ => .push
  | .pop _ => .pop
  | .call _ => .call
  | .ret => .ret
  | .jmp _ => .jmp
  | .jeq _ => .jeq
  | .jne _ => .jne

end Sys2Proof
end

