-- ==== Sys2Proof/Config.lean ====
section
/-! DEFINITION. The parameters a model of the CORE takes, and its free values (00_scope.md R6, 92_eei_decisions.md D1, D4, D19). -/

namespace Sys2Proof

/-- OPCODE_MAP: a byte value for each of the 13 operations (R6, R75). -/
abbrev OpcodeMap := Op → Byte

/-- The map gives 13 distinct byte values: the only condition on it (R75, R190 step 1). -/
abbrev OpcodeMap.Distinct (m : OpcodeMap) : Prop := (Op.all.map m).Nodup

/-- The configuration, fixed for the machine's life and no part of its state (R20, R191). -/
structure Config where
  /-- OPCODE_MAP. -/
  opcodeMap : OpcodeMap
  /-- SP_INIT, the construction value of R7; legal values 1..255 (R40). -/
  spInit : Byte
  /-- DEBUG_TRACE, present or absent; no effect on state (R184). -/
  debugTrace : Bool

/-- The configurations that R190 step 1 accepts. -/
abbrev Config.Legal (c : Config) : Prop := c.spInit ≠ 0 ∧ c.opcodeMap.Distinct

/-- What a debug trace shows for the byte at an address out of range, if it shows one: "not
specified" (R184). A FREE VALUE (log 19); no step reads it. -/
opaque Config.traceOutOfRange : Nat → Option Byte

end Sys2Proof
end

