-- ==== Sys2Proof/WellFormed.lean ====
section
/-! DEFINITION. When an instruction is well formed: every register field its format names holds 0..7 (30_encoding.md R72, 40_execution_loop.md R93, R102). -/

namespace Sys2Proof

/-- The register fields an instruction's format names, in the order R93 checks them (R102). -/
def Instr.regFields : Instr → List Byte
  | .ldi ra _ => [ra]
  | .prn ra => [ra]
  | .hlt => []
  | .mul ra rb => [ra, rb]
  | .add ra rb => [ra, rb]
  | .cmp ra rb => [ra, rb]
  | .push ra => [ra]
  | .pop ra => [ra]
  | .call ra => [ra]
  | .ret => []
  | .jmp ra => [ra]
  | .jeq ra => [ra]
  | .jne ra => [ra]

/-- Every register field names a register (R25, R72). The immediate of LDI may be any byte (R73). -/
abbrev Instr.WellFormed (i : Instr) : Prop := ∀ b ∈ i.regFields, b.toNat < 8

end Sys2Proof
end

