-- ==== Sys2Proof/Decode.lean ====
section
/-! DEFINITION. The encoding tables, the Dispatch Table, the decoder and the encoder (30_encoding.md, 40_execution_loop.md R92, R98, R102, R103). -/

namespace Sys2Proof

/-- The default OPCODE_MAP (R75): the LS-8 opcode bytes, which the spec marks as general knowledge
and not as the source's (log 2, PRESUMED). -/
def defaultOpcodeMap : OpcodeMap
  | .ldi => 0x82
  | .prn => 0x47
  | .hlt => 0x01
  | .mul => 0xA2
  | .add => 0xA0
  | .cmp => 0xA7
  | .push => 0x45
  | .pop => 0x46
  | .call => 0x50
  | .ret => 0x11
  | .jmp => 0x54
  | .jeq => 0x55
  | .jne => 0x56

/-- The format of each operation (R75). Call has a register operand, so F2R (C1, log 4). -/
def Op.format : Op → Format
  | .ldi => .opRI
  | .prn => .opR
  | .hlt => .op
  | .mul => .opRR
  | .add => .opRR
  | .cmp => .opRR
  | .push => .opR
  | .pop => .opR
  | .call => .opR
  | .ret => .op
  | .jmp => .opR
  | .jeq => .opR
  | .jne => .opR

/-- The width of a format in bytes, the opcode byte included (R70, R71). -/
def Format.width : Format → Nat
  | .op => 1
  | .opR => 2
  | .opRI => 3
  | .opRR => 3

/-- How many of a format's operand bytes are register fields (R71, R102). -/
def Format.regFieldCount : Format → Nat
  | .op => 0
  | .opR => 1
  | .opRI => 1
  | .opRR => 2

/-- The width of an operation's instruction in bytes (R75; R102's column). -/
def Op.width (o : Op) : Nat := o.format.width

/-- One entry of the Dispatch Table (R98, R102). -/
structure DispatchEntry where
  key : Byte
  op : Op
  width : Nat
  regFields : Nat
  deriving DecidableEq, Repr

/-- The Dispatch Table that OPCODE_MAP gives: one entry per operation and no other (R98, R102). -/
def dispatchTable (m : OpcodeMap) : List DispatchEntry :=
  Op.all.map fun o => { key := m o, op := o, width := o.width, regFields := o.format.regFieldCount }

/-- Looking an opcode byte up in the Dispatch Table (R92): the byte alone selects the entry (R103). -/
def lookup (m : OpcodeMap) (opc : Byte) : Option DispatchEntry :=
  (dispatchTable m).find? fun e => e.key == opc

/-- The instruction that an operation forms with the two lookahead bytes; a byte outside the
operation's format is dropped (R71, R74, R77). -/
def assemble : Op → Byte → Byte → Instr
  | .ldi, op1, op2 => .ldi op1 op2
  | .prn, op1, _ => .prn op1
  | .hlt, _, _ => .hlt
  | .mul, op1, op2 => .mul op1 op2
  | .add, op1, op2 => .add op1 op2
  | .cmp, op1, op2 => .cmp op1 op2
  | .push, op1, _ => .push op1
  | .pop, op1, _ => .pop op1
  | .call, op1, _ => .call op1
  | .ret, _, _ => .ret
  | .jmp, op1, _ => .jmp op1
  | .jeq, op1, _ => .jeq op1
  | .jne, op1, _ => .jne op1

/-- Why bytes decode to no instruction. -/
inductive DecodeError where
  /-- The opcode byte has no Dispatch Table entry (R76, R92). -/
  | illegalOpcode (opc : Byte)
  /-- Fewer than the three bytes a step fetches were given (never the case in a step, R91). -/
  | truncated
  deriving DecidableEq, Repr

/-- Decoding the three bytes a step fetches (R92). Total: every opcode byte either selects an entry
or is rejected by name. -/
def decode (m : OpcodeMap) (opc op1 op2 : Byte) : Except DecodeError Instr :=
  match lookup m opc with
  | none => .error (.illegalOpcode opc)
  | some e => .ok (assemble e.op op1 op2)

/-- Decoding the first instruction of a byte string, with the bytes after it. -/
def decodeBytes (m : OpcodeMap) : List Byte → Except DecodeError (Instr × List Byte)
  | opc :: op1 :: op2 :: rest =>
    match decode m opc op1 op2 with
    | .error e => .error e
    | .ok i => .ok (i, (opc :: op1 :: op2 :: rest).drop i.op.width)
  | _ => .error .truncated

/-- The operand bytes of an instruction, in memory order (R71, R78 "Encoding"). -/
def Instr.operandBytes : Instr → List Byte
  | .ldi ra imm => [ra, imm]
  | .prn ra => [ra]
  | .hlt => []
  | .mul ra rb => [ra, rb]
  | .add ra rb => [ra, rb]
  | .cmp ra rb => [ra, rb]
  | .push ra => [ra]
  | .pop ra => [ra]
  | .call ra => [ra]
  | .ret => []
  | .jmp ra => [ra]
  | .jeq ra => [ra]
  | .jne ra => [ra]

/-- The bytes of an instruction: the opcode byte, then the operand bytes (R71, R78). -/
def encode (m : OpcodeMap) (i : Instr) : List Byte := m i.op :: i.operandBytes

/-- Byte `k` of an instruction whose low `nbits` bits are `w` and whose other bits are 0; byte 0 is
the first in memory. -/
def tableByte (nbits w k : Nat) : Byte := BitVec.ofNat 8 ((w % 2 ^ nbits) >>> (8 * k))

/-- What the decoder, under the default OPCODE_MAP, reads from an instruction given as a number
numbered as the opcode table numbers its bits. -/
def decodeTableWord (nbits w : Nat) : Option Instr :=
  match decode defaultOpcodeMap (tableByte nbits w 0) (tableByte nbits w 1) (tableByte nbits w 2) with
  | .ok i => some i
  | .error _ => none

end Sys2Proof
end

