-- ==== Sys2Proof/Machine/Parameters.lean ====
section
/-! DEFINITION. The default values of the CORE's parameters, and what an unwritten memory cell holds (00_scope.md R6, 10_state.md R38, R40). -/

namespace Sys2Proof.Machine

/-- The default SP_INIT, 0xFF (R40; the spec's decision D4, log 3). -/
def defaultSpInit : Byte := 0xFF

/-- The value of PC after construction (R41; the spec's decision D3, log 5). -/
def pcReset : Nat := 0

/-- What a memory address that the memory does not list reads as: every cell is 0 after
construction (R38, log 25). -/
def unlistedByte : Byte := 0

/-- The number of memory cells (R6, R50). -/
abbrev memSize : Nat := 256

/-- The configuration that the fixed names `step` and `State.reset` run with (log 24). -/
def defaultConfig : Config where
  opcodeMap := defaultOpcodeMap
  spInit := defaultSpInit
  debugTrace := true

end Sys2Proof.Machine
end

