-- ==== Sys2Proof/Machine/State.lean ====
section
/-! DEFINITION. The machine state, its fatal conditions and refusals, and the state after construction (10_state.md, 60_exceptions.md R170, R176). -/

namespace Sys2Proof.Machine

/-- The Flags: Equal, Greater and Less (R29). -/
structure Flags where
  e : Bool
  g : Bool
  l : Bool
  deriving DecidableEq, Repr

/-- The run state (R33). -/
inductive RunState where
  | running
  /-- Stopped by Halt; terminal (R33, R90). -/
  | halted
  /-- Stopped by a fatal condition; terminal (R33, R90, C3). -/
  | faulted
  deriving DecidableEq, Repr

/-- The kind of a fatal condition, as the fault record holds it (R170). -/
inductive FaultKind where
  | outOfBounds
  | illegalInstruction
  | invalidOperation
  | invalidRegister
  deriving DecidableEq, Repr

/-- The fault record of R176: five fields (C7). -/
structure FaultRecord where
  kind : FaultKind
  pc : Nat
  opcode : Option Byte
  addr : Option Nat
  operand : Option Byte
  deriving DecidableEq, Repr

/-- The fatal conditions, as the primitives raise them (`raise K(info)` of R8; R170).
The spec gives each its entry (R176), so a step TAKES it: the outcome of the step is a next state
whose run state is Faulted and whose fault record names the condition. No step and no meaning ends
in `Host.Outcome.fault` (log 1). -/
inductive Fault where
  /-- Raised by a memory access at an address of 256 or more; in a step only by the fetch (R171).
  Safe: it is the spec's own condition, and the machine goes on to nothing. -/
  | outOfBounds (addr : Nat)
  /-- Raised by decode for an opcode byte with no Dispatch Table entry (R172). Safe, as above. -/
  | illegalInstruction
  /-- Raised by the ALU for an identifier it does not know; no step reaches it (R173). Safe, as above. -/
  | invalidOperation
  /-- Raised by the operand check for a register byte of 8 or more (R174). Safe: the model stops
  where hardware that masks the index would go on (D5, log 6). -/
  | invalidRegister (operand : Byte)
  deriving DecidableEq, Repr

/-- Why an instruction has no meaning. -/
inductive Refusal where
  /-- Raised by an arm of `exec` for an instruction that is not modelled yet; no arm does. Safe. -/
  | notModelled (mnemonic : String)
  deriving DecidableEq, Repr

/-- Memory contents: (address, byte) pairs in one canonical form, see `Memory.wf`. -/
abbrev Memory := List Host.Cell

/-- Addresses strictly rising from `lo` on, inside the memory, and no entry equal to what an unlisted
address reads as. -/
def Memory.wfFrom : Nat → Memory → Bool
  | _, [] => true
  | lo, (a, v) :: rest =>
    decide (lo ≤ a) && decide (a < memSize) && decide (v ≠ unlistedByte) && Memory.wfFrom (a + 1) rest

/-- The canonical form of memory: two memories in this form with equal cells are equal data. -/
def Memory.wf (mem : Memory) : Bool := Memory.wfFrom 0 mem

/-- The machine aggregate of R20. -/
structure State where
  /-- The 256 memory cells (R50). -/
  mem : Memory
  /-- The general registers R0..R7; R7 is the Stack Pointer (R21, R24). -/
  x : Vector Byte 8
  /-- The program counter: a natural number that never wraps (R27). -/
  pc : Nat
  /-- E, G and L (R29). -/
  flags : Flags
  /-- The run state (R33). -/
  run : RunState
  /-- The fault record, or none (R32, R176). -/
  fault : Option FaultRecord
  /-- The output events so far, oldest first (R35). -/
  out : List Byte
  deriving DecidableEq, Repr

/-- The state right after construction, with no program deposited (R37-R43), for the default
SP_INIT. -/
def State.reset : State where
  mem := []
  x := #v[0, 0, 0, 0, 0, 0, 0, defaultSpInit]
  pc := pcReset
  flags := { e := false, g := false, l := false }
  run := .running
  fault := none
  out := []

end Sys2Proof.Machine
end

