-- ==== Sys2Proof/Machine/Ops.lean ====
section
/-! DEFINITION. The shared operations over memory, registers, PC, run state and output; fault entry; and how a handler's result becomes a step's outcome (20_memory.md, 10_state.md, 40_execution_loop.md R94-R97, 60_exceptions.md R176). -/

namespace Sys2Proof.Machine

/-- What a step or a meaning answers. -/
abbrev Result := Host.Outcome State Fault Refusal

/-! ### Memory -/

/-- The byte at an address. -/
def Memory.read : Memory → Nat → Byte
  | [], _ => unlistedByte
  | (b, v) :: rest, a => if a = b then v else Memory.read rest a

/-- The memory with one byte changed, in canonical form. -/
def Memory.write : Memory → Nat → Byte → Memory
  | [], a, v => if v = unlistedByte then [] else [(a, v)]
  | (b, w) :: rest, a, v =>
    if a < b then
      if v = unlistedByte then (b, w) :: rest else (a, v) :: (b, w) :: rest
    else if a = b then
      if v = unlistedByte then rest else (a, v) :: rest
    else (b, w) :: Memory.write rest a v

/-- The byte of the state's memory at an address. -/
def State.byteAt (s : State) (a : Nat) : Byte := s.mem.read a

/-- The state with its memory replaced. -/
def State.withMem (mem : Memory) (s : State) : State := { s with mem := mem }

/-- `MemRead(a, 1)` (R51). -/
def memRead (a : Nat) (s : State) : Except Fault Byte :=
  if a < memSize then .ok (s.byteAt a) else .error (.outOfBounds a)

/-- `MemWrite(a, 1, v)` (R52). -/
def memWrite (a : Nat) (v : Byte) (s : State) : Except Fault State :=
  if a < memSize then .ok (s.withMem (s.mem.write a v)) else .error (.outOfBounds a)

/-! ### Registers -/

/-- `x[i]` (R23). -/
def reg (i : RegIdx) (s : State) : Byte := s.x[i]

/-- `x[i] <- v` for any integer `v`: the value modulo 256 is stored (R22). -/
def setReg (i : RegIdx) (v : Int) (s : State) : State :=
  { s with x := s.x.set i (BitVec.ofInt 8 v) }

/-! ### The stack (R140) -/

/-- `x[7] <- x[7] - 1`. -/
def decSp (s : State) : State := setReg spIdx ((reg spIdx s).toNat - 1) s

/-- `x[7] <- x[7] + 1`. -/
def incSp (s : State) : State := setReg spIdx ((reg spIdx s).toNat + 1) s

/-- `MemWrite(x[7], 1, v)`. -/
def storeTop (v : Byte) (s : State) : Except Fault State := memWrite (reg spIdx s).toNat v s

/-- `MemRead(x[7], 1)`. -/
def loadTop (s : State) : Except Fault Byte := memRead (reg spIdx s).toNat s

/-! ### PC, flags, run state, output -/

/-- Outcome (a) of R94 and R95: the PC advances by the operation's width, and never wraps (R27). -/
def advance (o : Op) (s : State) : State := { s with pc := s.pc + o.width }

/-- Outcome (b) of R94 and R95: the PC is set to an absolute byte target (R163). -/
def setPc (target : Byte) (s : State) : State := { s with pc := target.toNat }

/-- Outcome (c) of R94 and R95: the run state becomes Halted and the PC stays (R112). -/
def halt (s : State) : State := { s with run := .halted }

/-- `(E, G, L) <- fl`. -/
def setFlags (fl : Flags) (s : State) : State := { s with flags := fl }

/-- `emit(v)`: append one byte to the output events (R35). -/
def emit (v : Byte) (s : State) : State := { s with out := s.out ++ [v] }

/-! ### Taking a fatal condition -/

/-- The kind of a fatal condition (R170). -/
def Fault.kind : Fault → FaultKind
  | .outOfBounds _ => .outOfBounds
  | .illegalInstruction => .illegalInstruction
  | .invalidOperation => .invalidOperation
  | .invalidRegister _ => .invalidRegister

/-- The failing address a fatal condition records (R170). -/
def Fault.addr : Fault → Option Nat
  | .outOfBounds a => some a
  | .illegalInstruction => none
  | .invalidOperation => none
  | .invalidRegister _ => none

/-- The offending operand byte a fatal condition records (R170). -/
def Fault.operand : Fault → Option Byte
  | .outOfBounds _ => none
  | .illegalInstruction => none
  | .invalidOperation => none
  | .invalidRegister b => some b

/-- The code of a fault field, 0 for none (R170; the spec's decision D7, log 8). -/
def faultCode : Option FaultKind → Nat
  | none => 0
  | some .outOfBounds => 1
  | some .illegalInstruction => 2
  | some .invalidOperation => 3
  | some .invalidRegister => 4

/-- The encoding of the run state (R33); not visible to software (log 12). -/
def RunState.code : RunState → Nat
  | .running => 0
  | .halted => 1
  | .faulted => 2

/-- The opcode a fault record holds: the byte at pc, or none when the opcode read itself is out of
range (R91, R171). During a step pc and memory still are what the fetch saw (R26, log 23). -/
def recordedOpcode (s : State) : Option Byte :=
  if s.pc < memSize then some (s.byteAt s.pc) else none

/-- The record of a condition raised in state `s` (R176). -/
def faultRecord (f : Fault) (s : State) : FaultRecord where
  kind := f.kind
  pc := s.pc
  opcode := recordedOpcode s
  addr := f.addr
  operand := f.operand

/-- Fault entry (R176): the run state becomes Faulted and the record is written; nothing else
changes. There is no return from it (R177). -/
def takeFault (f : Fault) (s : State) : State :=
  { s with run := .faulted, fault := some (faultRecord f s) }

/-- How a handler run from `s` ends the step: with the state it built, or, when it raises a
condition, with fault entry FROM `s`, so that none of its writes takes place (R97, R176). -/
def conclude (s : State) : Except Fault State → Result
  | .ok t => .next t
  | .error f => .next (takeFault f s)

end Sys2Proof.Machine
end

