-- ==== Sys2Proof/Machine/Flags.lean ====
section
/-! DEFINITION. The flag computation of Compare, and the packed form of the flags (42_alu.md R124, 10_state.md R31). -/

namespace Sys2Proof.Machine

/-- The three-way comparison of two unsigned bytes (R124). -/
def compareFlags (a b : Byte) : Flags where
  e := decide (a.toNat = b.toNat)
  g := decide (a.toNat > b.toNat)
  l := decide (a.toNat < b.toNat)

/-- The packed flags `FL = 0b00000LGE` (R31; the spec's decision D11, log 12). No instruction reads it. -/
def Flags.pack (fl : Flags) : Byte :=
  BitVec.ofNat 8 (4 * fl.l.toNat + 2 * fl.g.toNat + fl.e.toNat)

end Sys2Proof.Machine
end

