-- ==== Sys2Proof/Machine/Operands.lean ====
section
/-! DEFINITION. The two operand forms: a register byte, which is checked, and the immediate byte (30_encoding.md R72, R73; 40_execution_loop.md R93). -/

namespace Sys2Proof.Machine

/-- The operand check of one register byte: 0..7 names a register, 8..255 raises InvalidRegister
(R72, R93; the spec's decision D5, log 6). The byte is not masked. -/
def checkReg (b : Byte) : Except Fault RegIdx :=
  if h : b.toNat < 8 then .ok ⟨b.toNat, h⟩ else .error (.invalidRegister b)

/-- The value of the immediate byte: unsigned, unchanged (R73). -/
def immediate (b : Byte) : Int := b.toNat

end Sys2Proof.Machine
end

