-- ==== Sys2Proof/Machine/Alu.lean ====
section
/-! DEFINITION. The ALU, and Multiply, Add and Compare (42_alu.md). -/

namespace Sys2Proof.Machine

/-- An operation identifier handed to the ALU (R120, R125). -/
inductive AluId where
  | add
  | sub
  | mul
  | cmp
  /-- Any identifier outside {Add, Sub, Mul, Cmp}, by a number of its own (R125, log 21). -/
  | other (code : Nat)
  deriving DecidableEq, Repr

/-- What the ALU returns: a byte or a flag triple (R120). -/
inductive AluResult where
  | value (v : Byte)
  | flags (fl : Flags)
  deriving DecidableEq, Repr

/-- The ALU: a pure function of an identifier and two bytes (R120-R125). -/
def alu : AluId → Byte → Byte → Except Fault AluResult
  | .add, a, b => .ok (.value (BitVec.ofNat 8 (a.toNat + b.toNat)))
  | .sub, a, b => .ok (.value (BitVec.ofInt 8 ((a.toNat : Int) - b.toNat)))
  | .mul, a, b => .ok (.value (BitVec.ofNat 8 (a.toNat * b.toNat)))
  | .cmp, a, b => .ok (.flags (compareFlags a b))
  | .other _, _, _ => .error .invalidOperation

/-- The write a handler makes of the ALU's result: a byte to register ra, a flag triple to the
flags (R120). -/
def writeAlu (r : RegIdx) : AluResult → State → State
  | .value v, s => setReg r v.toNat s
  | .flags fl, s => setFlags fl s

/-- What MUL, ADD and CMP share: check ra then rb, run the ALU on both registers, write its result,
advance (R93, R120, R126-R128). -/
def execAlu (id : AluId) (o : Op) (ra rb : Byte) (s : State) : Result :=
  conclude s do
    let r ← checkReg ra
    let q ← checkReg rb
    let v ← alu id (reg r s) (reg q s)
    return advance o (writeAlu r v s)

/-- MUL (R126). -/
def execMul (ra rb : Byte) (s : State) : Result := execAlu .mul .mul ra rb s

/-- ADD (R127). -/
def execAdd (ra rb : Byte) (s : State) : Result := execAlu .add .add ra rb s

/-- CMP (R128). -/
def execCmp (ra rb : Byte) (s : State) : Result := execAlu .cmp .cmp ra rb s

end Sys2Proof.Machine
end

