-- ==== Sys2Proof/Machine/Data.lean ====
section
/-! DEFINITION. Load-Immediate, Print-Register and Halt (41_data_and_halt.md). -/

namespace Sys2Proof.Machine

/-- LDI (R110). -/
def execLdi (ra imm : Byte) (s : State) : Result :=
  conclude s do
    let r ← checkReg ra
    return advance .ldi (setReg r (immediate imm) s)

/-- PRN (R111). -/
def execPrn (ra : Byte) (s : State) : Result :=
  conclude s do
    let r ← checkReg ra
    return advance .prn (emit (reg r s) s)

/-- HLT (R112). -/
def execHlt (s : State) : Result :=
  conclude s (.ok (halt s))

end Sys2Proof.Machine
end

