-- ==== Sys2Proof/Machine/Jumps.lean ====
section
/-! DEFINITION. Jump, Jump-If-Equal and Jump-If-Not-Equal (44_jumps.md). -/

namespace Sys2Proof.Machine

/-- What the jumps share: ra is checked whether or not the jump is taken (R93); a taken jump sets the
PC to x[ra], another advances by the width. -/
def jumpIf (taken : Bool) (o : Op) (ra : Byte) (s : State) : Result :=
  conclude s do
    let r ← checkReg ra
    return if taken then setPc (reg r s) s else advance o s

/-- JMP (R160). -/
def execJmp (ra : Byte) (s : State) : Result := jumpIf true .jmp ra s

/-- JEQ (R161): only E is read. -/
def execJeq (ra : Byte) (s : State) : Result := jumpIf s.flags.e .jeq ra s

/-- JNE (R162): only E is read. -/
def execJne (ra : Byte) (s : State) : Result := jumpIf (!s.flags.e) .jne ra s

end Sys2Proof.Machine
end

