-- ==== Sys2Proof/Machine/Stack.lean ====
section
/-! DEFINITION. Push, Pop, Call and Return (43_stack_call_return.md). Each statement sees the writes of the earlier ones (00_scope.md R8; the spec's decision D6, log 7). -/

namespace Sys2Proof.Machine

/-- PUSH (R141): x[ra] is read after the decrement. -/
def execPush (ra : Byte) (s : State) : Result :=
  conclude s do
    let r ← checkReg ra
    let t := decSp s
    let u ← storeTop (reg r t) t
    return advance .push u

/-- POP (R142): x[7] is incremented after x[ra] is written. -/
def execPop (ra : Byte) (s : State) : Result :=
  conclude s do
    let r ← checkReg ra
    let v ← loadTop s
    return advance .pop (incSp (setReg r v.toNat s))

/-- The return address Call pushes: the address of the next instruction (R143). A fetched Call has
pc ≤ 253, so it is a byte (R64, log 22). -/
def returnAddress (s : State) : Byte := BitVec.ofNat 8 (s.pc + Op.call.width)

/-- CALL (R143): the target x[ra] is read after the decrement. -/
def execCall (ra : Byte) (s : State) : Result :=
  conclude s do
    let r ← checkReg ra
    let t := decSp s
    let u ← storeTop (returnAddress s) t
    return setPc (reg r u) u

/-- RET (R144). -/
def execRet (s : State) : Result :=
  conclude s do
    let v ← loadTop s
    return incSp (setPc v s)

end Sys2Proof.Machine
end

