-- ==== Sys2Proof/Machine/Dispatch.lean ====
section
/-! DEFINITION. One arm per instruction: the handler its operation selects (40_execution_loop.md R94, R102). -/

namespace Sys2Proof.Machine

/-- Runs the handler of an instruction in a state whose pc is the address of its opcode byte (R26). -/
def exec (i : Instr) (s : State) : Host.Outcome State Fault Refusal :=
  match i with
  | .ldi ra imm => Sys2Proof.Machine.execLdi ra imm s
  | .prn ra => Sys2Proof.Machine.execPrn ra s
  | .hlt => Sys2Proof.Machine.execHlt s
  | .mul ra rb => Sys2Proof.Machine.execMul ra rb s
  | .add ra rb => Sys2Proof.Machine.execAdd ra rb s
  | .cmp ra rb => Sys2Proof.Machine.execCmp ra rb s
  | .push ra => Sys2Proof.Machine.execPush ra s
  | .pop ra => Sys2Proof.Machine.execPop ra s
  | .call ra => Sys2Proof.Machine.execCall ra s
  | .ret => Sys2Proof.Machine.execRet s
  | .jmp ra => Sys2Proof.Machine.execJmp ra s
  | .jeq ra => Sys2Proof.Machine.execJeq ra s
  | .jne ra => Sys2Proof.Machine.execJne ra s

end Sys2Proof.Machine
end

