-- ==== Sys2Proof/Machine/Fetch.lean ====
section
/-! DEFINITION. Fetching and decoding the instruction at pc, and placing an instruction there (40_execution_loop.md R91, R92; 70_reset_and_hazards.md R192). -/

namespace Sys2Proof.Machine

/-- Fetch (R91): the bytes at pc, pc+1 and pc+2, read in this order for every opcode. -/
def fetch (s : State) : Except Fault (Byte × Byte × Byte) := do
  let opc ← memRead s.pc s
  let op1 ← memRead (s.pc + 1) s
  let op2 ← memRead (s.pc + 2) s
  return (opc, op1, op2)

/-- Fetch, then decode: a miss in the Dispatch Table raises IllegalInstruction (R92). -/
def fetchInstr (m : OpcodeMap) (s : State) : Except Fault Instr := do
  let (opc, op1, op2) ← fetch s
  match decode m opc op1 op2 with
  | .ok i => return i
  | .error _ => throw .illegalInstruction

/-- Where `withFetchWord` places an instruction: at pc, or at 0 where no fetch at pc can succeed (log 18). -/
def fetchSlot (s : State) : Nat := if s.pc + 2 < memSize then s.pc else 0

/-- The state with the three bytes of an instruction word stored in order from address `a` on. -/
def placeWord (a nbits w : Nat) (s : State) : State :=
  s.withMem (((s.mem.write a (tableByte nbits w 0)).write (a + 1) (tableByte nbits w 1)).write
    (a + 2) (tableByte nbits w 2))

end Sys2Proof.Machine
end

