-- ==== Sys2Proof/Machine/Step.lean ====
section
/-! DEFINITION. One step of the Execution Loop (40_execution_loop.md R90-R97, R99), and the host's way to place an instruction. -/

namespace Sys2Proof.Machine

/-- One step request under an OPCODE_MAP (R90-R95, R99): a Running machine fetches, decodes and runs
one instruction, and a condition raised by fetch or decode is taken (R176); a Halted or Faulted
machine changes nothing (R90, R99). -/
def stepWith (m : OpcodeMap) (s : State) : Host.Outcome State Fault Refusal :=
  match s.run with
  | .running =>
    match fetchInstr m s with
    | .ok i => exec i s
    | .error f => .next (takeFault f s)
  | .halted => .next s
  | .faulted => .next s

/-- One step under the default OPCODE_MAP (log 24). -/
def step (s : State) : Host.Outcome State Fault Refusal := stepWith defaultOpcodeMap s

/-- The state with an instruction stored where the next step fetches it, and Running, so that the
next step runs exactly it (log 18). -/
def State.withFetchWord (s : State) (nbits w : Nat) : State :=
  { placeWord (fetchSlot s) nbits w s with pc := fetchSlot s, run := .running, fault := none }

end Sys2Proof.Machine
end

