-- ==== Sys2Proof/Machine/Boot.lean ====
section
/-! DEFINITION. Construction of a machine from a configuration and a program image (70_reset_and_hazards.md R190, R192; 10_state.md R37-R43). -/

namespace Sys2Proof.Machine

/-- Why no machine is built. -/
inductive BuildRefusal where
  /-- SP_INIT = 0 (R40, R190 step 1). -/
  | spInitZero
  /-- OPCODE_MAP gives two operations the same byte (R190 step 1). -/
  | opcodeClash
  /-- The program image has more than 256 bytes (R192). -/
  | imageTooLong
  deriving DecidableEq, Repr

/-- The construction state of R190 step 3 for a given SP_INIT. -/
def initialState (spInit : Byte) : State :=
  { State.reset with x := #v[0, 0, 0, 0, 0, 0, 0, spInit] }

/-- The loader's deposit: the image's bytes in order from address `a` on (R192). -/
def deposit : Nat → List Byte → Memory → Memory
  | _, [], mem => mem
  | a, b :: rest, mem => deposit (a + 1) rest (mem.write a b)

/-- Construction (R190): the configuration and the image are checked, then the state is set and the
image deposited at address 0. The deposit touches memory only (R192). -/
def construct (c : Config) (image : List Byte) : Except BuildRefusal State :=
  if c.spInit = 0 then .error .spInitZero
  else if ¬ c.opcodeMap.Distinct then .error .opcodeClash
  else if memSize < image.length then .error .imageTooLong
  else .ok ((initialState c.spInit).withMem (deposit 0 image []))

end Sys2Proof.Machine
end

