-- ==== Sys2Proof/Machine/Assembly.lean ====
section
/-! DEFINITION. The program notation of 30_encoding.md R78: its mnemonics, register names and lines, and the image a program written in it gives. The notation is the spec's own and no part of the hardware (D18, log 26). -/

namespace Sys2Proof.Machine

/-- The mnemonic of each operation (R75, R78). -/
def mnemonic : Op → String
  | .ldi => "LDI"
  | .prn => "PRN"
  | .hlt => "HLT"
  | .mul => "MUL"
  | .add => "ADD"
  | .cmp => "CMP"
  | .push => "PUSH"
  | .pop => "POP"
  | .call => "CALL"
  | .ret => "RET"
  | .jmp => "JMP"
  | .jeq => "JEQ"
  | .jne => "JNE"

/-- The register names: R0..R7, and SP for R7 (R78). -/
def registerNames : List (String × RegIdx) :=
  [("R0", 0), ("R1", 1), ("R2", 2), ("R3", 3), ("R4", 4), ("R5", 5), ("R6", 6), ("R7", 7),
   ("SP", spIdx)]

/-- The register a name stands for, in upper case only (DESIGN CHOICE, log 26). -/
def registerNamed (name : String) : Option RegIdx := registerNames.lookup name

/-- The byte a register is written as in an instruction: its number (R78 "Encoding"). -/
def registerByte (r : RegIdx) : Byte := BitVec.ofNat 8 r.val

/-- One line of a program (R78). There is no other form: the notation has no pseudo-instructions. -/
inductive Line where
  /-- `label:` names the address of the next byte. -/
  | label (name : String)
  /-- An instruction with its registers and, for LDI, a number in 0..255. -/
  | instr (i : Instr)
  /-- `LDI Ra, label`: the label as an immediate stands for its address. -/
  | ldiLabel (ra : RegIdx) (name : String)
  /-- `.byte v` places one raw byte. -/
  | byte (v : Byte)
  deriving DecidableEq, Repr

/-! ### Reading one line, given as its words without the commas between them -/

/-- The operation a mnemonic stands for, in upper case only (DESIGN CHOICE, log 26). -/
def operationNamed (word : String) : Option Op := Op.all.find? fun o => mnemonic o == word

/-- The value of a digit; hexadecimal digits in either case, which R78 does not say (DESIGN CHOICE, log
26). -/
def digitValue (c : Char) : Option Nat :=
  [('0', 0), ('1', 1), ('2', 2), ('3', 3), ('4', 4), ('5', 5), ('6', 6), ('7', 7), ('8', 8),
   ('9', 9), ('A', 10), ('B', 11), ('C', 12), ('D', 13), ('E', 14), ('F', 15), ('a', 10),
   ('b', 11), ('c', 12), ('d', 13), ('e', 14), ('f', 15)].lookup c

/-- The value of digits in a base, after the value `n` of the digits before them. -/
def readDigits (base n : Nat) : List Char → Option Nat
  | [] => some n
  | c :: rest =>
    match digitValue c with
    | some d => if d < base then readDigits base (n * base + d) rest else none
    | none => none

/-- The value of a decimal, `0x` hexadecimal or `0b` binary number (R78). Leading zeros are allowed, and
the marks x and b are in lower case only (DESIGN CHOICE, log 26). -/
def readNatural : List Char → Option Nat
  | [] => none
  | '0' :: 'x' :: c :: rest => readDigits 16 0 (c :: rest)
  | '0' :: 'b' :: c :: rest => readDigits 2 0 (c :: rest)
  | c :: rest => readDigits 10 0 (c :: rest)

/-- A number in 0..255 (R78). -/
def readNumber (word : String) : Option Byte :=
  match readNatural word.toList with
  | some n => if n < 256 then some (BitVec.ofNat 8 n) else none
  | none => none

/-- Whether a word may name a label: R78 does not say, and the model takes every word that is no
number in any of the three bases and of any size; it may be spelled like a mnemonic or a register name
(DESIGN CHOICE, log 26). -/
def isLabelName (word : String) : Bool := (readNatural word.toList).isNone

/-- LDI's line from its register and its immediate word: a number in 0..255, or a label name. A number
above 255 is neither, and is refused (R78; log 26). -/
def readLdi (ra : RegIdx) (word : String) : Option Line :=
  match readNumber word with
  | some imm => some (.instr (.ldi (registerByte ra) imm))
  | none => if isLabelName word then some (.ldiLabel ra word) else none

/-- An instruction's line from its operation and operand words, as the format gives them (R71, R78).
LDI is the only operation with an immediate (R73). -/
def readOperands (o : Op) (words : List String) : Option Line :=
  match o.format, words with
  | .op, [] => some (.instr (assemble o 0 0))
  | .opR, [a] => (registerNamed a).map fun ra => .instr (assemble o (registerByte ra) 0)
  | .opRI, [a, v] => (registerNamed a).bind fun ra => readLdi ra v
  | .opRR, [a, b] =>
    match registerNamed a, registerNamed b with
    | some ra, some rb => some (.instr (assemble o (registerByte ra) (registerByte rb)))
    | _, _ => none
  | _, _ => none

/-- One item of the notation (R78): `label:`, `.byte v` or an instruction. R78 does not say how the v of
`.byte v` is written: the model reads a number in 0..255 in the three forms of an immediate and refuses
a label there (DESIGN CHOICE, log 26). -/
def readLine : List String → Option Line
  | [] => none
  | [name, ":"] => if isLabelName name then some (.label name) else none
  | [".byte", v] => (readNumber v).map .byte
  | word :: operands =>
    match operationNamed word with
    | some o => readOperands o operands
    | none => none

/-- One written line: an item with any number of labels before it, or a label alone. R78 does not say
that a label may share a line; programs P2 and P3 of 95_test_vectors.md write it so, and the model
allows it, for any number of labels (DESIGN CHOICE, log 26). -/
def readWrittenLine : List String → Option (List Line)
  | name :: ":" :: word :: rest =>
    match readLine [name, ":"], readWrittenLine (word :: rest) with
    | some l, some ls => some (l :: ls)
    | _, _ => none
  | words => (readLine words).map fun l => [l]

/-- The lines of a program, from the words of each written line. -/
def readProgram (written : List (List String)) : Option (List Line) :=
  (written.mapM readWrittenLine).map List.flatten

/-! ### The image of a program -/

/-- How many bytes a line places. -/
def lineSize : Line → Nat
  | .label _ => 0
  | .instr i => i.op.width
  | .ldiLabel _ _ => Op.ldi.width
  | .byte _ => 1

/-- How many bytes a program places. -/
def programSize (lines : List Line) : Nat := (lines.map lineSize).sum

/-- The labels a program defines, in order. -/
def definedLabels : List Line → List String
  | [] => []
  | .label name :: rest => name :: definedLabels rest
  | .instr _ :: rest => definedLabels rest
  | .ldiLabel _ _ :: rest => definedLabels rest
  | .byte _ :: rest => definedLabels rest

/-- The address a label names, in a program whose first byte is at address `a`. -/
def labelAddress (a : Nat) : List Line → String → Option Nat
  | [], _ => none
  | l :: rest, name => if l = .label name then some a else labelAddress (a + lineSize l) rest name

/-- The bytes of one line, given what each label names. None where the line is not in the notation: a
register byte that no name writes, a label that is not defined or whose address is no byte. -/
def lineBytes (m : OpcodeMap) (address : String → Option Nat) : Line → Option (List Byte)
  | .label _ => some []
  | .instr i => if i.WellFormed then some (encode m i) else none
  | .ldiLabel ra name =>
    match address name with
    | some a => if a < 256 then some (encode m (.ldi (registerByte ra) (BitVec.ofNat 8 a))) else none
    | none => none
  | .byte v => some [v]

/-- The bytes of lines one after the other. -/
def linesBytes (m : OpcodeMap) (address : String → Option Nat) : List Line → Option (List Byte)
  | [] => some []
  | l :: rest =>
    match lineBytes m address l, linesBytes m address rest with
    | some front, some back => some (front ++ back)
    | some _, none => none
    | none, _ => none

/-- The image of a program, its first byte at address 0 (R78, R192). None where a label is defined
twice or a line is not in the notation (log 26). -/
def programImage (m : OpcodeMap) (lines : List Line) : Option (List Byte) :=
  if (definedLabels lines).Nodup then linesBytes m (labelAddress 0 lines) lines else none

end Sys2Proof.Machine
end

