-- ==== Sys2Proof/Machine/Interface.lean ====
section
/-! DEFINITION. The CORE's interfaces to its host: step request and reply, run, fault report, debug trace (00_scope.md R7; 40_execution_loop.md R99-R101; 60_exceptions.md R178, R184). -/

namespace Sys2Proof.Machine

/-- The run status a step request returns: Running, Halted, or Faulted with the record (R7, R99). -/
inductive Status where
  | running
  | halted
  | faulted (record : Option FaultRecord)
  deriving DecidableEq, Repr

/-- The status of a state. -/
def State.status (s : State) : Status :=
  match s.run with
  | .running => .running
  | .halted => .halted
  | .faulted => .faulted s.fault

/-- The state after one step request. -/
def stepped (m : OpcodeMap) (s : State) : State :=
  match stepWith m s with
  | .next t => t
  | .fault _ => s
  | .refused _ => s

/-- The fault report: handed to the host once, by the request in which the machine enters Faulted (R178). -/
def faultReport (s t : State) : Option FaultRecord :=
  match s.run with
  | .running => if t.run = .faulted then t.fault else none
  | .halted => none
  | .faulted => none

/-- What one step request hands over: the next state, the status, the values given to the output sink
and the fault report (R7). -/
structure StepReply where
  state : State
  status : Status
  emitted : List Byte
  report : Option FaultRecord
  deriving DecidableEq, Repr

/-- A step request (R99). -/
def stepRequest (m : OpcodeMap) (s : State) : StepReply where
  state := stepped m s
  status := (stepped m s).status
  emitted := (stepped m s).out.drop s.out.length
  report := faultReport s (stepped m s)

/-- The state after `n` step requests. A run is step requests until the state is not Running, and may
never end (R100); a request to a stopped machine changes nothing, so once a run has ended more
requests show the same end. -/
def runFor (m : OpcodeMap) : Nat → State → State
  | 0, s => s
  | n + 1, s => runFor m n (stepped m s)

/-- The end of a run (R101): the machine is not Running. -/
def State.ended (s : State) : Bool := decide (s.run ≠ .running)

/-- One debug trace: pc, the bytes at pc, pc+1 and pc+2, and all registers (R184). -/
structure DebugTrace where
  pc : Nat
  opcode : Option Byte
  op1 : Option Byte
  op2 : Option Byte
  x : Vector Byte 8
  deriving DecidableEq, Repr

/-- What a trace shows for the byte at an address: out of range, a free value (R184, log 19). -/
def traceByte (s : State) (a : Nat) : Option Byte :=
  if a < memSize then some (s.byteAt a) else Config.traceOutOfRange a

/-- A trace request (R184): answered only where DEBUG_TRACE is present. It is a function OF the state
and changes nothing; it never raises a fatal condition. -/
def debugTrace (c : Config) (s : State) : Option DebugTrace :=
  if c.debugTrace then
    some { pc := s.pc, opcode := traceByte s s.pc, op1 := traceByte s (s.pc + 1),
           op2 := traceByte s (s.pc + 2), x := s.x }
  else none

end Sys2Proof.Machine
end

