-- ==== Sys2Proof/Safety.lean ====
section
/-! DEFINITION. What a legal machine state is: the invariant that every step keeps, in the terms the statements use (10_state.md R27, R30, R33; 60_exceptions.md R170-R176; 41_data_and_halt.md R112). -/

namespace Sys2Proof.Machine

/-- The reachable flag states {000, 100, 010, 001}: at most one flag is set (R30). -/
def Flags.legal (fl : Flags) : Bool := decide (fl.e.toNat + fl.g.toNat + fl.l.toNat ≤ 1)

/-- The flag states after a Compare: exactly one flag is set (R30, R124). -/
def Flags.exactlyOne (fl : Flags) : Bool := decide (fl.e.toNat + fl.g.toNat + fl.l.toNat = 1)

/-- A fault record tells the truth about the state that holds it: it names the pc the machine stopped
at and the opcode byte there, and its kind's own fields are as R170 lists them, for a condition that
the bytes at pc really give. -/
def FaultRecord.Describes (m : OpcodeMap) (s : State) (r : FaultRecord) : Prop :=
  r.pc = s.pc ∧ r.opcode = recordedOpcode s ∧
  match r.kind with
  | .outOfBounds => 254 ≤ s.pc ∧ r.addr = some 256 ∧ r.operand = none
  | .illegalInstruction =>
    s.pc ≤ 253 ∧ (∀ o, m o ≠ s.byteAt s.pc) ∧ r.addr = none ∧ r.operand = none
  | .invalidOperation => False
  | .invalidRegister =>
    s.pc ≤ 253 ∧ (∃ o, m o = s.byteAt s.pc) ∧ r.addr = none ∧
      ∃ b, r.operand = some b ∧ 8 ≤ b.toNat ∧ (b = s.byteAt (s.pc + 1) ∨ b = s.byteAt (s.pc + 2))

/-- The machine invariant, under an OPCODE_MAP. -/
structure State.Inv (m : OpcodeMap) (s : State) : Prop where
  /-- Memory is in canonical form. -/
  memory : s.mem.wf = true
  /-- The flags are one of the four reachable states (R30). -/
  flags : s.flags.legal = true
  /-- The PC is at most 256 (R27). -/
  pc : s.pc ≤ 256
  /-- A Halted machine stands on the Halt that stopped it (R112). -/
  halted : s.run = .halted → s.pc ≤ 253 ∧ s.byteAt s.pc = m .hlt
  /-- There is a fault record exactly when the machine is Faulted (R32, R176). -/
  record : s.fault.isSome = true ↔ s.run = .faulted
  /-- The fault record describes the state (R170-R176). -/
  describes : ∀ r, s.fault = some r → r.Describes m s

end Sys2Proof.Machine
end

