-- ==== Sys2Proof/Certificates/Slice0/Obligations.lean ====
section
/-! DEFINITION. The statements about the model, for the provers. "D<n>" is a decision of spec/92_eei_decisions.md, "log n" is notes/assumptions/n.md. -/

open Sys2Proof Sys2Proof.Machine

/-! ### Encoding -/

/-- Under every OPCODE_MAP with 13 distinct bytes, decoding the bytes of an instruction gives it back,
every operand byte at every value, and leaves the bytes after it, whatever they are (30_encoding.md
§1 and §2). -/
def Obligations.DecodeOfEncodeIsIdentity : Prop :=
  ∀ (m : OpcodeMap), m.Distinct → ∀ (i : Instr) (a b : Byte) (rest : List Byte),
    decodeBytes m (encode m i ++ a :: b :: rest) = .ok (i, a :: b :: rest)

/-- Each word has one meaning: the three bytes that decode to an instruction begin with exactly its
encoding. -/
def Obligations.DecodedBytesAreTheEncoding : Prop :=
  ∀ (m : OpcodeMap) (opc op1 op2 : Byte) (i : Instr), decode m opc op1 op2 = .ok i →
    ∃ rest, [opc, op1, op2] = encode m i ++ rest ∧ rest.length = 3 - i.op.width

/-- Words written out from the encodings of 30_encoding.md decode to their instructions, under the
default OPCODE_MAP (PRESUMED, log 2). -/
def Obligations.SampleWordsDecode : Prop :=
  decode defaultOpcodeMap 0b10000010 0b00000011 0b11111110 = .ok (.ldi 3 254) ∧
  decode defaultOpcodeMap 0b01000111 0b00000101 0b00000000 = .ok (.prn 5) ∧
  decode defaultOpcodeMap 0b00000001 0b11111111 0b11111111 = .ok .hlt ∧
  decode defaultOpcodeMap 0b10100111 0b00000110 0b00000001 = .ok (.cmp 6 1) ∧
  decode defaultOpcodeMap 0b01010000 0b00000001 0b10101010 = .ok (.call 1) ∧
  decode defaultOpcodeMap 0b00010001 0b01010101 0b00000000 = .ok .ret ∧
  decode defaultOpcodeMap 0b01010110 0b00000111 0b00000000 = .ok (.jne 7)

/-- R103: the opcode byte alone selects the handler. Whether the bytes decode, the operation and so
the width, format and outcome class do not depend on the operand bytes. -/
def Obligations.OpcodeByteAloneSelectsTheHandler : Prop :=
  ∀ (m : OpcodeMap) (opc op1 op2 op1' op2' : Byte),
    (∀ i, decode m opc op1 op2 = .ok i → ∃ i', decode m opc op1' op2' = .ok i' ∧ i'.op = i.op) ∧
    (∀ e, decode m opc op1 op2 = .error e → decode m opc op1' op2' = .error e)

/-- R76: a byte that OPCODE_MAP does not assign is illegal as an opcode, with any operand bytes, and
every other byte decodes; under the default map (PRESUMED, log 2) 243 byte values are illegal,
0x00 and 0xA1 among them. -/
def Obligations.UnassignedOpcodesAreIllegal : Prop :=
  (∀ (m : OpcodeMap) (opc op1 op2 : Byte),
    ((∀ o, m o ≠ opc) → decode m opc op1 op2 = .error (.illegalOpcode opc)) ∧
    (∀ o, m o = opc → ∃ i, decode m opc op1 op2 = .ok i ∧ m i.op = opc)) ∧
  ((List.range 256).filter
    fun n => (lookup defaultOpcodeMap (BitVec.ofNat 8 n)).isNone).length = 243 ∧
  lookup defaultOpcodeMap 0x00 = none ∧ lookup defaultOpcodeMap 0xA1 = none

/-- R77, R74 (D16, log 17): an operand byte outside the operation's width never changes what is
decoded. -/
def Obligations.UnusedOperandBytesAreIgnored : Prop :=
  ∀ (m : OpcodeMap) (opc op1 op2 op1' op2' : Byte) (i : Instr),
    decode m opc op1 op2 = .ok i →
      (i.op.width ≤ 2 → decode m opc op1 op2' = .ok i) ∧
      (i.op.width = 1 → decode m opc op1' op2' = .ok i)

/-! ### Registers, memory, flags, codes -/

/-- R22: a register write stores the value modulo 256, for any integer, so -1 becomes 255; the other
registers keep their values. -/
def Obligations.RegisterWriteWrapsModulo256 : Prop :=
  ∀ (i : RegIdx) (v : Int) (s : State),
    ((reg i (setReg i v s)).toNat : Int) = v % 256 ∧
    (∀ j, j ≠ i → reg j (setReg i v s) = reg j s) ∧
    reg i (setReg i (-1) s) = 255

/-- R51: a memory read answers the cell for an address below 256 and raises OutOfBounds with the
address for every other. -/
def Obligations.MemoryReadIsBounded : Prop :=
  ∀ (a : Nat) (s : State),
    (a < 256 → memRead a s = .ok (s.byteAt a)) ∧
    (256 ≤ a → memRead a s = .error (.outOfBounds a))

/-- R52: a memory write sets the cell for an address below 256 and no other cell, and raises
OutOfBounds with the address for every other address: no wraparound. -/
def Obligations.MemoryWriteSetsOneCell : Prop :=
  ∀ (a : Nat) (v : Byte) (s : State), s.mem.wf = true →
    (a < 256 → ∃ t, memWrite a v s = .ok t ∧ t.byteAt a = v ∧
      (∀ b, b ≠ a → t.byteAt b = s.byteAt b) ∧ t.x = s.x ∧ t.pc = s.pc ∧ t.flags = s.flags ∧
      t.run = s.run ∧ t.fault = s.fault ∧ t.out = s.out) ∧
    (256 ≤ a → memWrite a v s = .error (.outOfBounds a))

/-- Memories in the canonical form that hold the same 256 cells are equal data (log 25). -/
def Obligations.CanonicalMemoriesWithEqualCellsAreEqual : Prop :=
  ∀ (p q : Memory), p.wf = true → q.wf = true → (∀ a, a < 256 → p.read a = q.read a) → p = q

/-- The packed flags are 0b00000LGE (D11, log 12). -/
def Obligations.PackedFlagsLayout : Prop :=
  ∀ (fl : Flags), fl.pack.getLsbD 0 = fl.e ∧ fl.pack.getLsbD 1 = fl.g ∧ fl.pack.getLsbD 2 = fl.l ∧
    ∀ k, 3 ≤ k → fl.pack.getLsbD k = false

/-- The numbering of fault kinds and of run states (D7, log 8; R33, log 12). -/
def Obligations.FaultAndRunCodes : Prop :=
  faultCode none = 0 ∧ faultCode (some .outOfBounds) = 1 ∧
  faultCode (some .illegalInstruction) = 2 ∧ faultCode (some .invalidOperation) = 3 ∧
  faultCode (some .invalidRegister) = 4 ∧
  RunState.code .running = 0 ∧ RunState.code .halted = 1 ∧ RunState.code .faulted = 2

/-! ### ALU -/

/-- R121, R123: Add and Mul are the exact sum and product modulo 256. -/
def Obligations.AluAddAndMulWrap : Prop :=
  ∀ (a b : Byte),
    (∃ v, alu .add a b = .ok (.value v) ∧ v.toNat = (a.toNat + b.toNat) % 256) ∧
    (∃ v, alu .mul a b = .ok (.value v) ∧ v.toNat = (a.toNat * b.toNat) % 256)

/-- R122: Sub is the exact difference modulo 256, non-negative. That no instruction selects it is the
spec's decision D12 (log 13). -/
def Obligations.AluSubWraps : Prop :=
  ∀ (a b : Byte), ∃ v, alu .sub a b = .ok (.value v) ∧
    (v.toNat : Int) = ((a.toNat : Int) - b.toNat) % 256

/-- R124: Cmp compares unsigned values and sets exactly one of E, G and L. -/
def Obligations.AluCompareSetsExactlyOneFlag : Prop :=
  ∀ (a b : Byte), ∃ fl, alu .cmp a b = .ok (.flags fl) ∧
    (fl.e = true ↔ a.toNat = b.toNat) ∧ (fl.g = true ↔ a.toNat > b.toNat) ∧
    (fl.l = true ↔ a.toNat < b.toNat) ∧ fl.exactlyOne = true

/-- R125: an identifier outside {Add, Sub, Mul, Cmp} raises InvalidOperation, and with the Dispatch
Table of R102, under any OPCODE_MAP, no step raises it. -/
def Obligations.UnknownAluIdentifierIsInvalidAndUnreachable : Prop :=
  (∀ (code : Nat) (a b : Byte), alu (.other code) a b = .error .invalidOperation) ∧
  (∀ (id : AluId) (a b : Byte), alu id a b = .error .invalidOperation → ∃ code, id = .other code) ∧
  (∀ (m : OpcodeMap) (s t : State) (r : FaultRecord), stepWith m s = .next t →
    t.fault = some r → r.kind = .invalidOperation → s.fault = some r)

/-- The arithmetic laws of R129 that are about values: Add and Mul commute and are associative, and 0
and 1 are as usual for Mul. -/
def Obligations.AluArithmeticLaws : Prop :=
  ∀ (a b c : Byte),
    alu .add a b = alu .add b a ∧ alu .mul a b = alu .mul b a ∧
    (∀ u v, alu .add a b = .ok (.value u) → alu .add b c = .ok (.value v) →
      alu .add u c = alu .add a v) ∧
    (∀ u v, alu .mul a b = .ok (.value u) → alu .mul b c = .ok (.value v) →
      alu .mul u c = alu .mul a v) ∧
    alu .mul a 0 = .ok (.value 0) ∧ alu .mul a 1 = .ok (.value a)

/-! ### What each instruction does, with all it leaves unchanged

Each equation gives the whole next state, so it is also the frame and the completion of its
instruction. A register byte of 8 or more is the subject of `InvalidRegisterByteFaults`. -/

/-- LDI: x[ra] becomes the immediate and the PC advances by 3 (R110's pseudocode). -/
def Obligations.LoadImmediateEffect : Prop :=
  ∀ (s : State) (ra imm : Byte) (h : ra.toNat < 8),
    exec (.ldi ra imm) s = .next { s with x := s.x.set ra.toNat imm h, pc := s.pc + 3 }

/-- PRN: x[ra] is appended to out and the PC advances by 2 (R111's pseudocode; out is D13, log 14). -/
def Obligations.PrintRegisterEffect : Prop :=
  ∀ (s : State) (ra : Byte) (h : ra.toNat < 8),
    exec (.prn ra) s = .next { s with out := s.out ++ [s.x[ra.toNat]'h], pc := s.pc + 2 }

/-- HLT: the run state becomes Halted and pc stays (R112's pseudocode). -/
def Obligations.HaltEffect : Prop :=
  ∀ (s : State), exec .hlt s = .next { s with run := .halted }

/-- MUL and ADD: x[ra] becomes the product or sum of the old x[ra] and x[rb] modulo 256, ra = rb
included; no flag is written (R126, R127's pseudocode). -/
def Obligations.MultiplyAndAddEffect : Prop :=
  ∀ (s : State) (ra rb : Byte) (ha : ra.toNat < 8) (hb : rb.toNat < 8),
    exec (.mul ra rb) s = .next { s with
      x := s.x.set ra.toNat
        (BitVec.ofNat 8 (((s.x[ra.toNat]'ha).toNat * (s.x[rb.toNat]'hb).toNat) % 256)) ha,
      pc := s.pc + 3 } ∧
    exec (.add ra rb) s = .next { s with
      x := s.x.set ra.toNat
        (BitVec.ofNat 8 (((s.x[ra.toNat]'ha).toNat + (s.x[rb.toNat]'hb).toNat) % 256)) ha,
      pc := s.pc + 3 }

/-- CMP: all three flags are written from the unsigned comparison, and nothing else but the PC
(R128's pseudocode). -/
def Obligations.CompareEffect : Prop :=
  ∀ (s : State) (ra rb : Byte) (ha : ra.toNat < 8) (hb : rb.toNat < 8),
    exec (.cmp ra rb) s = .next { s with
      flags := { e := decide ((s.x[ra.toNat]'ha).toNat = (s.x[rb.toNat]'hb).toNat),
                 g := decide ((s.x[ra.toNat]'ha).toNat > (s.x[rb.toNat]'hb).toNat),
                 l := decide ((s.x[ra.toNat]'ha).toNat < (s.x[rb.toNat]'hb).toNat) },
      pc := s.pc + 3 }

/-- PUSH: SP is decremented modulo 256, then x[ra], read after the decrement (D6, log 7), is written
at the address SP now holds (R141's pseudocode). -/
def Obligations.PushEffect : Prop :=
  ∀ (s : State) (ra : Byte) (h : ra.toNat < 8),
    exec (.push ra) s = .next { s with
      x := s.x.set 7 (s.x[7] - 1),
      mem := s.mem.write (s.x[7] - 1).toNat ((s.x.set 7 (s.x[7] - 1))[ra.toNat]'h),
      pc := s.pc + 2 }

/-- POP: the byte at SP goes to x[ra], then x[7] is incremented modulo 256, read after that write (D6,
log 7); memory is not written (R142's pseudocode). -/
def Obligations.PopEffect : Prop :=
  ∀ (s : State) (ra : Byte) (h : ra.toNat < 8),
    exec (.pop ra) s = .next { s with
      x := (s.x.set ra.toNat (s.byteAt s.x[7].toNat) h).set 7
        ((s.x.set ra.toNat (s.byteAt s.x[7].toNat) h)[7] + 1),
      pc := s.pc + 2 }

/-- CALL: SP is decremented modulo 256, the return address pc + 2 (width 2: C1, log 4) is written at
the address SP now holds, and the PC becomes x[ra], read after the decrement (D6, log 7; R143's
pseudocode). That pc + 2 is a byte is what the fetch of a Call guarantees (R64, log 22). -/
def Obligations.CallEffect : Prop :=
  ∀ (s : State) (ra ret : Byte) (h : ra.toNat < 8), ret.toNat = s.pc + 2 →
    exec (.call ra) s = .next { s with
      x := s.x.set 7 (s.x[7] - 1),
      mem := s.mem.write (s.x[7] - 1).toNat ret,
      pc := ((s.x.set 7 (s.x[7] - 1))[ra.toNat]'h).toNat }

/-- RET: the PC becomes the byte at SP, and SP is incremented modulo 256 (R144's pseudocode). -/
def Obligations.ReturnEffect : Prop :=
  ∀ (s : State), exec .ret s = .next { s with
    pc := (s.byteAt s.x[7].toNat).toNat, x := s.x.set 7 (s.x[7] + 1) }

/-- JMP: the PC becomes x[ra]; nothing else changes (R160's pseudocode). -/
def Obligations.JumpEffect : Prop :=
  ∀ (s : State) (ra : Byte) (h : ra.toNat < 8),
    exec (.jmp ra) s = .next { s with pc := (s.x[ra.toNat]'h).toNat }

/-- JEQ and JNE: taken when E is 1, and when E is 0; otherwise the PC advances by 2; nothing else
changes (R161, R162's pseudocode). -/
def Obligations.ConditionalJumpEffect : Prop :=
  ∀ (s : State) (ra : Byte) (h : ra.toNat < 8),
    exec (.jeq ra) s = .next { s with
      pc := if s.flags.e = true then (s.x[ra.toNat]'h).toNat else s.pc + 2 } ∧
    exec (.jne ra) s = .next { s with
      pc := if s.flags.e = false then (s.x[ra.toNat]'h).toNat else s.pc + 2 }

/-- The first register byte of 8 or more, ra before rb, makes the instruction fault with
InvalidRegister, untaken jumps included: the record is written and nothing else changes (R93, R174;
the spec's decisions D5, D7, D23: log 6, 8, 20). -/
def Obligations.InvalidRegisterByteFaults : Prop :=
  ∀ (i : Instr) (s : State) (b : Byte), i.regFields.find? (fun b => decide (8 ≤ b.toNat)) = some b →
    exec i s = .next { s with
      run := .faulted,
      fault := some { kind := .invalidRegister, pc := s.pc,
                      opcode := if s.pc < 256 then some (s.byteAt s.pc) else none,
                      addr := none, operand := some b } }

/-- A well-formed instruction completes in every state, raises nothing, and stops the machine only if
it is Halt. -/
def Obligations.WellFormedInstructionsComplete : Prop :=
  ∀ (i : Instr) (s : State), i.WellFormed →
    ∃ t, exec i s = .next t ∧ t.fault = s.fault ∧ (t.run = s.run ∨ (i = .hlt ∧ t.run = .halted))

/-! ### Frames and whole-machine rules -/

/-- An instruction that only advances moves the PC by its width, unreduced; a transfer leaves the PC
at the target its handler set; Halt leaves it (the outcome classes of R94 and the update of R95; the
target of CALL R7 is the spec's decision D6, log 7). -/
def Obligations.PcUpdateFollowsTheOutcome : Prop :=
  ∀ (i : Instr) (s : State), i.WellFormed → ∃ t, exec i s = .next t ∧
    match i with
    | .ldi _ _ => t.pc = s.pc + 3
    | .prn _ => t.pc = s.pc + 2
    | .hlt => t.pc = s.pc ∧ t.run = .halted
    | .mul _ _ => t.pc = s.pc + 3
    | .add _ _ => t.pc = s.pc + 3
    | .cmp _ _ => t.pc = s.pc + 3
    | .push _ => t.pc = s.pc + 2
    | .pop _ => t.pc = s.pc + 2
    | .call ra => ∃ r : RegIdx, r.val = ra.toNat ∧ t.pc = (reg r (decSp s)).toNat
    | .ret => t.pc = (s.byteAt (reg 7 s).toNat).toNat
    | .jmp ra => ∃ r : RegIdx, r.val = ra.toNat ∧ t.pc = (reg r s).toNat
    | .jeq ra => ∃ r : RegIdx, r.val = ra.toNat ∧
        (s.flags.e = true → t.pc = (reg r s).toNat) ∧ (s.flags.e = false → t.pc = s.pc + 2)
    | .jne ra => ∃ r : RegIdx, r.val = ra.toNat ∧
        (s.flags.e = false → t.pc = (reg r s).toNat) ∧ (s.flags.e = true → t.pc = s.pc + 2)

/-- Registers: LDI, MUL, ADD change at most x[ra]; POP at most x[ra] and SP; PUSH, CALL and RET at
most SP; the others none. -/
def Obligations.OnlyNamedRegistersChange : Prop :=
  ∀ (i : Instr) (s t : State), exec i s = .next t → ∀ (r : RegIdx), t.x[r] ≠ s.x[r] →
    match i with
    | .ldi ra _ => r.val = ra.toNat
    | .mul ra _ => r.val = ra.toNat
    | .add ra _ => r.val = ra.toNat
    | .pop ra => r.val = ra.toNat ∨ r = 7
    | .push _ => r = 7
    | .call _ => r = 7
    | .ret => r = 7
    | .prn _ => False
    | .hlt => False
    | .cmp _ _ => False
    | .jmp _ => False
    | .jeq _ => False
    | .jne _ => False

/-- Memory: PUSH and CALL change at most the byte at SP - 1, and hold there what R141 and R143 say
(D6, log 7; C1, log 4); every other instruction leaves every byte as it was (20_memory.md R53). -/
def Obligations.OnlyPushAndCallWriteMemory : Prop :=
  (∀ (i : Instr) (s t : State), (∀ ra, i ≠ .push ra) → (∀ ra, i ≠ .call ra) →
    exec i s = .next t → ∀ a, t.byteAt a = s.byteAt a) ∧
  (∀ (ra : Byte) (s t : State), s.mem.wf = true →
    (exec (.push ra) s = .next t ∨ exec (.call ra) s = .next t) →
    ∀ a, a ≠ (s.x[7] - 1).toNat → t.byteAt a = s.byteAt a) ∧
  (∀ (ra : Byte) (s t : State) (h : ra.toNat < 8), s.mem.wf = true →
    exec (.push ra) s = .next t → t.byteAt (s.x[7] - 1).toNat = t.x[ra.toNat]'h) ∧
  (∀ (ra : Byte) (s t : State), ra.toNat < 8 → s.mem.wf = true → s.pc ≤ 253 →
    exec (.call ra) s = .next t → (t.byteAt (s.x[7] - 1).toNat).toNat = s.pc + 2)

/-- R29: only Compare writes the flags; no instruction lets G or L show anywhere but in G and L: with
other values of G and L the same instruction leaves the same registers, memory, PC, run state, fault
record, output and E; and no instruction moves any flag into a register or memory: with any other
flags only the flags and, for JEQ and JNE, the PC can differ. -/
def Obligations.FlagsAreWrittenByCompareAndOnlyEqualIsRead : Prop :=
  (∀ (i : Instr) (s t : State), (∀ ra rb, i ≠ .cmp ra rb) → exec i s = .next t →
    t.flags = s.flags) ∧
  (∀ (i : Instr) (s t : State) (g l : Bool), exec i s = .next t →
    ∃ t', exec i { s with flags := { s.flags with g := g, l := l } } = .next t' ∧
      t'.mem = t.mem ∧ t'.x = t.x ∧ t'.pc = t.pc ∧ t'.run = t.run ∧ t'.fault = t.fault ∧
      t'.out = t.out ∧ t'.flags.e = t.flags.e) ∧
  (∀ (i : Instr) (s t : State) (fl : Flags), exec i s = .next t →
    ∃ t', exec i { s with flags := fl } = .next t' ∧
      t'.mem = t.mem ∧ t'.x = t.x ∧ t'.run = t.run ∧ t'.fault = t.fault ∧ t'.out = t.out ∧
      ((∀ ra, i ≠ .jeq ra) → (∀ ra, i ≠ .jne ra) → t'.pc = t.pc))

/-- R35: Print-Register appends one byte per execution, nothing else in a step appends, and no
instruction can read the output: with another output sequence before it, the same instruction appends
the same and leaves all else the same. -/
def Obligations.OnlyPrintAppendsToOutput : Prop :=
  (∀ (i : Instr) (s t : State), (∀ ra, i ≠ .prn ra) → exec i s = .next t → t.out = s.out) ∧
  (∀ (s : State) (ra : Byte) (h : ra.toNat < 8),
    ∃ t, exec (.prn ra) s = .next t ∧ t.out = s.out ++ [s.x[ra.toNat]'h]) ∧
  (∀ (i : Instr) (s t : State) (pre : List Byte), exec i s = .next t →
    exec i { s with out := pre ++ s.out } = .next { t with out := pre ++ t.out }) ∧
  (∀ (m : OpcodeMap) (s t : State), stepWith m s = .next t → t.out ≠ s.out →
    ∃ ra, fetchInstr m s = .ok (.prn ra))

/-- A meaning raises InvalidRegister and no other condition: no data access is out of bounds (R54's
derivation), and the ALU never sees an unknown identifier (InvalidRegister is D5, log 6). -/
def Obligations.MeaningsRaiseOnlyInvalidRegister : Prop :=
  ∀ (i : Instr) (s t : State), exec i s = .next t →
    (i.WellFormed ∧ t.fault = s.fault ∧ (t.run = s.run ∨ t.run = .halted)) ∨
    (∃ b ∈ i.regFields, 8 ≤ b.toNat ∧ t = takeFault (.invalidRegister b) s)

/-- Halt is the only way into Halted (R112): a step of a Running machine ends Halted exactly when the
fetch succeeds and the bytes decode to Halt. That a fatal condition does not enter Halted is the spec's
decision D8 (C3, log 9). -/
def Obligations.OnlyHaltEntersHalted : Prop :=
  ∀ (m : OpcodeMap) (s t : State), s.run = .running → stepWith m s = .next t →
    (t.run = .halted ↔ fetchInstr m s = .ok .hlt)

/-! ### The step -/

/-- A step runs the decoded instruction: when the machine is Running, pc ≤ 253 and the bytes at pc,
pc+1, pc+2 decode to an instruction, the step is exec of it at that same state, well formed or not,
for `step` (the default OPCODE_MAP) and for every OPCODE_MAP. -/
def Obligations.StepRunsTheDecodedInstruction : Prop :=
  ∀ (s : State) (i : Instr), s.run = .running → s.pc ≤ 253 →
    (decode defaultOpcodeMap (s.byteAt s.pc) (s.byteAt (s.pc + 1)) (s.byteAt (s.pc + 2)) = .ok i →
      step s = exec i s) ∧
    (∀ (m : OpcodeMap),
      decode m (s.byteAt s.pc) (s.byteAt (s.pc + 1)) (s.byteAt (s.pc + 2)) = .ok i →
      stepWith m s = exec i s)

/-- R92: an opcode byte with no entry in the Dispatch Table raises IllegalInstruction, and nothing
changes, the PC included, but the run state and the record that raising writes (R8; C3). -/
def Obligations.UnknownOpcodeRaisesIllegalInstruction : Prop :=
  ∀ (m : OpcodeMap) (s : State), s.run = .running → s.pc ≤ 253 →
    lookup m (s.byteAt s.pc) = none →
    ∃ r, stepWith m s = .next { s with run := .faulted, fault := some r } ∧
      r.kind = .illegalInstruction

/-- R195: at pc ≥ 254 no instruction runs, whatever the bytes are, and OutOfBounds is raised with
registers, memory, flags, pc and output as they were; at pc ≤ 253 the fetch of all three bytes
succeeds; and a 3-byte instruction at 253 leaves pc 256, where the next step so faults. -/
def Obligations.FetchSucceedsExactlyUpTo253 : Prop :=
  ∀ (m : OpcodeMap) (s : State), s.run = .running →
    (s.pc ≤ 253 →
      fetch s = .ok (s.byteAt s.pc, s.byteAt (s.pc + 1), s.byteAt (s.pc + 2))) ∧
    (254 ≤ s.pc → ∃ r, stepWith m s = .next { s with run := .faulted, fault := some r } ∧
      r.kind = .outOfBounds) ∧
    (∀ (i : Instr), s.pc = 253 → i.WellFormed → i.op.width = 3 →
      ∃ t r, exec i s = .next t ∧ t.pc = 256 ∧
        stepWith m t = .next { t with run := .faulted, fault := some r } ∧ r.kind = .outOfBounds)

/-- What the fault record holds for a failed fetch and for an illegal opcode (R171, R172; record
layout D7, log 8; priority D23, log 20). -/
def Obligations.FetchAndDecodeFaultRecords : Prop :=
  ∀ (m : OpcodeMap) (s : State), s.run = .running →
    (s.pc = 254 ∨ s.pc = 255 → stepWith m s = .next { s with
      run := .faulted,
      fault := some { kind := .outOfBounds, pc := s.pc, opcode := some (s.byteAt s.pc),
                      addr := some 256, operand := none } }) ∧
    (256 ≤ s.pc → stepWith m s = .next { s with
      run := .faulted,
      fault := some { kind := .outOfBounds, pc := s.pc, opcode := none,
                      addr := some s.pc, operand := none } }) ∧
    (s.pc ≤ 253 → (∀ o, m o ≠ s.byteAt s.pc) → stepWith m s = .next { s with
      run := .faulted,
      fault := some { kind := .illegalInstruction, pc := s.pc, opcode := some (s.byteAt s.pc),
                      addr := none, operand := none } })

/-- Fault entry is precise: when a step of a Running machine ends Faulted, only the run state and the
record have changed, and the record names the pc of the instruction (R97, R176; D7, D8, D9: log 8,
9, 10). -/
def Obligations.FaultedStepsChangeNothingElse : Prop :=
  ∀ (m : OpcodeMap) (s t : State), s.run = .running → stepWith m s = .next t →
    t.run = .faulted →
    ∃ r, t = { s with run := .faulted, fault := some r } ∧ r.pc = s.pc ∧
      r.opcode = (if s.pc < 256 then some (s.byteAt s.pc) else none) ∧
      (r.addr.isSome = true ↔ r.kind = .outOfBounds) ∧
      (r.operand.isSome = true ↔ r.kind = .invalidRegister)

/-- A Halted or Faulted machine stays as it is, the fault record included (R90, R99, R177; the spec's
decision D20, log 9). -/
def Obligations.StoppedMachinesDoNotChange : Prop :=
  ∀ (m : OpcodeMap) (s : State), s.run ≠ .running → stepWith m s = .next s ∧ stepped m s = s

/-- Every step answers a next state: no state of the machine is stuck, faults out of the model or is
refused (R199: a Running machine always has an enabled step; for a stopped machine and for fault entry
it is D8 and D20: log 1, 9). -/
def Obligations.EveryStepAnswersANextState : Prop :=
  ∀ (m : OpcodeMap) (s : State), ∃ t, stepWith m s = .next t

/-! ### Stack -/

/-- PUSH r then POP r restores every register, r = 7 included, and leaves the pushed value in the cell
below the old SP (derived by the spec in R146; for r = 7 from D6, log 7). -/
def Obligations.PushThenPopRestoresRegisters : Prop :=
  ∀ (s : State) (ra : Byte), ra.toNat < 8 → s.mem.wf = true →
    ∃ t u, exec (.push ra) s = .next t ∧ exec (.pop ra) t = .next u ∧
      u.x = s.x ∧ u.mem = t.mem ∧ u.pc = s.pc + 4 ∧
      ∃ r : RegIdx, r.val = ra.toNat ∧ u.byteAt (s.x[7] - 1).toNat = t.x[r]

/-- A CALL at c, then any run that gets back to the same SP with the return address untouched, then
RET: the PC is c + 2 and SP is what it was before the CALL (R146; width 2: C1, log 4). -/
def Obligations.CallThenReturnResumesAfterTheCall : Prop :=
  ∀ (s t u v : State) (ra : Byte), ra.toNat < 8 → s.mem.wf = true → s.pc ≤ 253 →
    exec (.call ra) s = .next t → u.x[7] = t.x[7] →
    u.byteAt t.x[7].toNat = t.byteAt t.x[7].toNat → exec .ret u = .next v →
    v.pc = s.pc + 2 ∧ v.x[7] = s.x[7]

/-- A store is seen by the very next fetch (R62, R197; D15, log 16). The two instructions that store
are PUSH and CALL: when PUSH writes one of the three bytes at the next pc, the value it stores (x[ra] after
the decrement: for ra = 7 the decremented SP, D6, log 7) is fetched there, and when CALL writes one of the three bytes at its target, the return address pc + 2 (width 2:
C1, log 4) is fetched there. -/
def Obligations.PushedByteIsFetchedNext : Prop :=
  (∀ (s t : State) (ra : Byte) (opc op1 op2 : Byte) (h : ra.toNat < 8), s.mem.wf = true →
    exec (.push ra) s = .next t → fetch t = .ok (opc, op1, op2) →
    ((s.x[7] - 1).toNat = t.pc → opc = t.x[ra.toNat]'h) ∧
    ((s.x[7] - 1).toNat = t.pc + 1 → op1 = t.x[ra.toNat]'h) ∧
    ((s.x[7] - 1).toNat = t.pc + 2 → op2 = t.x[ra.toNat]'h)) ∧
  (∀ (s t : State) (ra : Byte) (opc op1 op2 : Byte), ra.toNat < 8 → s.mem.wf = true → s.pc ≤ 253 →
    exec (.call ra) s = .next t → fetch t = .ok (opc, op1, op2) →
    ((s.x[7] - 1).toNat = t.pc → opc.toNat = s.pc + 2) ∧
    ((s.x[7] - 1).toNat = t.pc + 1 → op1.toNat = s.pc + 2) ∧
    ((s.x[7] - 1).toNat = t.pc + 2 → op2.toNat = s.pc + 2))

/-! ### Construction -/

/-- R38, R39: after construction the image's bytes stand at 0..n-1, every other cell is 0, and R0..R6
are 0. -/
def Obligations.ConstructionClearsAndDeposits : Prop :=
  ∀ (c : Config) (image : List Byte) (s : State), construct c image = .ok s →
    (∀ a, s.byteAt a = image.getD a 0) ∧
    (∀ (r : RegIdx), r ≠ 7 → s.x[r] = 0)

/-- The other construction values: SP is SP_INIT, pc is 0, the flags are 000, the machine is Running,
with no fault and no output; and the reset state is the construction of the default configuration
with an empty image and SP = 0xFF (R40-R43; D3, D4, D7, D10, D13: log 3, 5, 8, 11, 14). -/
def Obligations.ConstructionInitialValues : Prop :=
  (∀ (c : Config) (image : List Byte) (s : State), construct c image = .ok s →
    s.x[7] = c.spInit ∧ s.pc = 0 ∧ s.flags = { e := false, g := false, l := false } ∧
    s.run = .running ∧ s.fault = none ∧ s.out = []) ∧
  construct defaultConfig [] = .ok State.reset ∧ State.reset.x[7] = 0xFF

/-- A machine is built exactly when SP_INIT is not 0, OPCODE_MAP gives distinct bytes and the image
has at most 256 bytes (R190 step 1, R192; D4, D17: log 3, 18). -/
def Obligations.ConstructionRefusals : Prop :=
  ∀ (c : Config) (image : List Byte),
    ((∃ s, construct c image = .ok s) ↔ c.Legal ∧ image.length ≤ 256) ∧
    (c.spInit = 0 → construct c image = .error .spInitZero) ∧
    (c.Legal → 256 < image.length → construct c image = .error .imageTooLong)

/-! ### The machine invariant -/

/-- Every step keeps the machine invariant, under every OPCODE_MAP, from every state that meets it:
memory stays canonical, the flags stay one of {000, 100, 010, 001}, the PC stays within 0..256, a
Halted machine stands on its Halt, and a fault record exists exactly in Faulted and tells the truth
about pc, opcode, address and operand (D5, D7, D8, D10, D21 and the memory's form: log 6, 8, 9, 11,
22, 25). -/
def Obligations.StepKeepsTheMachineInvariant : Prop :=
  ∀ (m : OpcodeMap) (s t : State), s.Inv m → stepWith m s = .next t → t.Inv m

/-- Every constructed machine meets the invariant, whatever the legal configuration and image are (D3,
D7, D10: log 5, 8, 11). -/
def Obligations.ConstructedMachinesMeetTheInvariant : Prop :=
  ∀ (c : Config) (image : List Byte) (s : State), construct c image = .ok s → s.Inv c.opcodeMap

/-- The reset state meets the invariant (D3, D7, D10: log 5, 8, 11). -/
def Obligations.ResetMeetsTheMachineInvariant : Prop :=
  State.reset.Inv defaultOpcodeMap

/-! ### Host interface -/

/-- A step request hands the sink exactly what the step appended to out, at most one byte, and
reports a fault exactly when the machine enters Faulted, once (R7, R99, R178; D13, D20: log 14, 9). -/
def Obligations.StepRequestReply : Prop :=
  ∀ (m : OpcodeMap) (s : State),
    (stepRequest m s).state.out = s.out ++ (stepRequest m s).emitted ∧
    (stepRequest m s).emitted.length ≤ 1 ∧
    ((stepRequest m s).report.isSome = true ↔
      s.run = .running ∧ (stepRequest m s).state.run = .faulted) ∧
    ((stepRequest m s).report.isSome = true →
      (stepRequest m s).status = .faulted (stepRequest m s).report ∧
      (stepRequest m (stepRequest m s).state).report = none ∧
      (stepRequest m (stepRequest m s).state).status = (stepRequest m s).status)

/-- A run has at most one end: once n step requests have stopped the machine, more requests show the
same state (R100, R101; D20, log 9). -/
def Obligations.EndedRunsStayEnded : Prop :=
  ∀ (m : OpcodeMap) (n k : Nat) (s : State), (runFor m n s).ended = true →
    runFor m (n + k) s = runFor m n s

/-- A debug trace is answered in every state where the configuration has it, and shows pc, all
registers, and every byte of pc, pc+1, pc+2 that is in range; only the bytes out of range are left
open (R184; D19, log 19). Without DEBUG_TRACE there is none. -/
def Obligations.DebugTraceShowsTheFetchWindow : Prop :=
  ∀ (c : Config) (s : State),
    (c.debugTrace = false → debugTrace c s = none) ∧
    (c.debugTrace = true → ∃ tr, debugTrace c s = some tr ∧ tr.pc = s.pc ∧ tr.x = s.x ∧
      (s.pc < 256 → tr.opcode = some (s.byteAt s.pc)) ∧
      (s.pc + 1 < 256 → tr.op1 = some (s.byteAt (s.pc + 1))) ∧
      (s.pc + 2 < 256 → tr.op2 = some (s.byteAt (s.pc + 2))))

/-! ### Program notation (30_encoding.md R78; the spec's own, D18, log 26) -/

/-- The bytes of each instruction: the opcode byte, then the ra byte, then the imm8 or rb byte, as the
format gives (R71, R75's formats with Call's width from C1, log 4; R78 "Encoding"). -/
def Obligations.InstructionBytesInOrder : Prop :=
  ∀ (m : OpcodeMap) (ra rb imm : Byte),
    encode m (.ldi ra imm) = [m .ldi, ra, imm] ∧ encode m (.prn ra) = [m .prn, ra] ∧
    encode m .hlt = [m .hlt] ∧ encode m (.mul ra rb) = [m .mul, ra, rb] ∧
    encode m (.add ra rb) = [m .add, ra, rb] ∧ encode m (.cmp ra rb) = [m .cmp, ra, rb] ∧
    encode m (.push ra) = [m .push, ra] ∧ encode m (.pop ra) = [m .pop, ra] ∧
    encode m (.call ra) = [m .call, ra] ∧ encode m .ret = [m .ret] ∧
    encode m (.jmp ra) = [m .jmp, ra] ∧ encode m (.jeq ra) = [m .jeq, ra] ∧
    encode m (.jne ra) = [m .jne, ra]

/-- The image of a program: each line's own bytes stand where the lines before it end. An instruction
gives its encoding, `.byte` one raw byte, a label nothing; a label names the address of the byte after
it, and LDI with a label loads that address. -/
def Obligations.ProgramImagePlacesEachLine : Prop :=
  ∀ (m : OpcodeMap) (before after : List Line) (l : Line) (image : List Byte),
    programImage m (before ++ l :: after) = some image →
    ∃ front bytes back, image = front ++ bytes ++ back ∧ front.length = programSize before ∧
      match l with
      | .instr i => bytes = encode m i
      | .byte v => bytes = [v]
      | .label name =>
        bytes = [] ∧ labelAddress 0 (before ++ l :: after) name = some front.length
      | .ldiLabel ra name => ∃ a : Byte,
        labelAddress 0 (before ++ l :: after) name = some a.toNat ∧
        bytes = encode m (.ldi (registerByte ra) a)
end

