-- ==== Sys2Proof/Laws/Assembly.lean ====
section
/-! SUPPORT. What the program notation's operations can do. -/

namespace Sys2Proof.Machine

theorem registerByte_toNat (r : RegIdx) : (registerByte r).toNat = r.val := by
  have := r.isLt
  simp only [registerByte, BitVec.toNat_ofNat]
  omega

/-- Each mnemonic names its own operation. -/
theorem operationNamed_mnemonic (o : Op) : operationNamed (mnemonic o) = some o := by
  cases o <;> decide

/-- A number in 0..255 is read as that number and never as a label. -/
theorem readLdi_number {ra : RegIdx} {word : String} {imm : Byte} (h : readNumber word = some imm) :
    readLdi ra word = some (.instr (.ldi (registerByte ra) imm)) := by
  simp only [readLdi, h]

/-- A label name is no number. -/
theorem readNumber_of_isLabelName {word : String} (h : isLabelName word = true) :
    readNumber word = none := by
  simp only [isLabelName, Option.isNone_iff_eq_none] at h
  simp only [readNumber, h]

/-- Labels before an item are lines of their own, in order. -/
theorem readWrittenLine_label {name word : String} {rest : List String} {ls : List Line}
    (hn : isLabelName name = true) (h : readWrittenLine (word :: rest) = some ls) :
    readWrittenLine (name :: ":" :: word :: rest) = some (.label name :: ls) := by
  simp only [readWrittenLine, readLine, hn, h, if_true]

/-- A line's bytes are as many as its size. -/
theorem lineBytes_length {m : OpcodeMap} {address : String → Option Nat} {l : Line}
    {bytes : List Byte} (h : lineBytes m address l = some bytes) : bytes.length = lineSize l := by
  cases l with
  | label name => cases h; rfl
  | byte v => cases h; rfl
  | instr i =>
    simp only [lineBytes] at h
    split at h <;> cases h
    cases i <;> rfl
  | ldiLabel ra name =>
    simp only [lineBytes] at h
    split at h
    · split at h <;> cases h
      rfl
    · cases h

/-- The bytes of a first line and of the rest. -/
theorem linesBytes_cons {m : OpcodeMap} {address : String → Option Nat} {l : Line}
    {rest : List Line} {bytes : List Byte} :
    linesBytes m address (l :: rest) = some bytes ↔
      ∃ front back, lineBytes m address l = some front ∧ linesBytes m address rest = some back ∧
        bytes = front ++ back := by
  simp only [linesBytes]
  cases lineBytes m address l <;> cases linesBytes m address rest <;> simp [eq_comm]

end Sys2Proof.Machine
end

