-- ==== Sys2Proof/Laws/Decode.lean ====
section
/-! SUPPORT. What the Dispatch Table lookup can answer. -/

namespace Sys2Proof

theorem Op.mem_all (o : Op) : o ∈ Op.all := by cases o <;> decide

/-- The entry a byte selects is the entry of an operation that has this byte (R102). -/
theorem lookup_some {m : OpcodeMap} {opc : Byte} {e : DispatchEntry} (h : lookup m opc = some e) :
    e.key = opc ∧ m e.op = opc ∧ e.width = e.op.width := by
  have hp := List.find?_some h
  have hm := List.mem_of_find?_eq_some h
  simp only [dispatchTable, List.mem_map] at hm
  obtain ⟨o, -, rfl⟩ := hm
  simp only [beq_iff_eq] at hp
  exact ⟨hp, hp, rfl⟩

/-- A byte selects no entry exactly when no operation has it (R76). -/
theorem lookup_none_iff {m : OpcodeMap} {opc : Byte} : lookup m opc = none ↔ ∀ o, m o ≠ opc := by
  simp only [lookup, dispatchTable, List.find?_eq_none, List.mem_map, beq_iff_eq]
  constructor
  · intro h o ho
    exact h _ ⟨o, Op.mem_all o, rfl⟩ ho
  · rintro h e ⟨o, -, rfl⟩
    exact h o

theorem OpcodeMap.Distinct.injective {m : OpcodeMap} (h : m.Distinct) {o p : Op} (e : m o = m p) :
    o = p :=
  List.inj_on_of_nodup_map h (Op.mem_all o) (Op.mem_all p) e

@[simp] theorem assemble_op (o : Op) (a b : Byte) : (assemble o a b).op = o := by cases o <;> rfl

end Sys2Proof
end

