-- ==== Sys2Proof/Laws/Memory.lean ====
section
/-! SUPPORT. The laws of memory: reading after writing, and every operation keeps the canonical form. -/

namespace Sys2Proof.Machine

@[simp] theorem Memory.read_nil (a : Nat) : Memory.read [] a = unlistedByte := rfl

theorem Memory.wfFrom_cons {lo a : Nat} {v : Byte} {rest : Memory} :
    Memory.wfFrom lo ((a, v) :: rest) = true ↔
      lo ≤ a ∧ a < memSize ∧ v ≠ unlistedByte ∧ Memory.wfFrom (a + 1) rest = true := by
  simp [Memory.wfFrom, and_assoc]

theorem Memory.wfFrom_mono {lo lo' : Nat} (h : lo' ≤ lo) {mem : Memory}
    (w : Memory.wfFrom lo mem = true) : Memory.wfFrom lo' mem = true := by
  cases mem with
  | nil => rfl
  | cons c rest =>
    obtain ⟨a, v⟩ := c
    rw [Memory.wfFrom_cons] at w ⊢
    exact ⟨h.trans w.1, w.2⟩

/-- An address below the first possible entry is not listed. -/
theorem Memory.read_below {lo a : Nat} (h : a < lo) {mem : Memory}
    (w : Memory.wfFrom lo mem = true) : mem.read a = unlistedByte := by
  induction mem generalizing lo with
  | nil => rfl
  | cons c rest ih =>
    obtain ⟨b, v⟩ := c
    rw [Memory.wfFrom_cons] at w
    have hb : a ≠ b := by omega
    simp only [Memory.read, hb, if_false]
    exact ih (by omega) w.2.2.2

/-- An address outside the memory is not listed. -/
theorem Memory.read_outside {lo a : Nat} (h : memSize ≤ a) {mem : Memory}
    (w : Memory.wfFrom lo mem = true) : mem.read a = unlistedByte := by
  induction mem generalizing lo with
  | nil => rfl
  | cons c rest ih =>
    obtain ⟨b, v⟩ := c
    rw [Memory.wfFrom_cons] at w
    have hb : a ≠ b := by omega
    simp only [Memory.read, hb, if_false]
    exact ih w.2.2.2

theorem Memory.wfFrom_write {lo a : Nat} {v : Byte} (ha : a < memSize) (hlo : lo ≤ a)
    {mem : Memory} (w : Memory.wfFrom lo mem = true) :
    Memory.wfFrom lo (mem.write a v) = true := by
  induction mem generalizing lo with
  | nil =>
    unfold Memory.write
    split
    · rfl
    · rename_i hv
      exact Memory.wfFrom_cons.mpr ⟨hlo, ha, hv, rfl⟩
  | cons c rest ih =>
    obtain ⟨b, u⟩ := c
    have w' := Memory.wfFrom_cons.mp w
    unfold Memory.write
    split
    · rename_i hab
      split
      · exact w
      · rename_i hv
        exact Memory.wfFrom_cons.mpr
          ⟨hlo, ha, hv, Memory.wfFrom_cons.mpr ⟨by omega, w'.2⟩⟩
    · split
      · rename_i hab
        subst hab
        split
        · exact Memory.wfFrom_mono (by omega) w'.2.2.2
        · rename_i hv
          exact Memory.wfFrom_cons.mpr ⟨hlo, ha, hv, w'.2.2.2⟩
      · exact Memory.wfFrom_cons.mpr ⟨w'.1, w'.2.1, w'.2.2.1, ih (by omega) w'.2.2.2⟩

/-- Writing inside the memory keeps the canonical form. -/
theorem Memory.wf_write {a : Nat} (ha : a < memSize) (v : Byte) {mem : Memory}
    (w : mem.wf = true) : (mem.write a v).wf = true :=
  Memory.wfFrom_write ha (Nat.zero_le a) w

theorem Memory.read_write_from {lo a : Nat} {v : Byte} {mem : Memory}
    (w : Memory.wfFrom lo mem = true) (c : Nat) :
    (mem.write a v).read c = if c = a then v else mem.read c := by
  induction mem generalizing lo with
  | nil =>
    unfold Memory.write
    split
    · rename_i hv; simp [hv]
    · simp [Memory.read]
  | cons d rest ih =>
    obtain ⟨b, u⟩ := d
    have w' := Memory.wfFrom_cons.mp w
    unfold Memory.write
    split
    · rename_i hab
      split
      · rename_i hv
        split
        · rename_i hc
          subst hc hv
          exact Memory.read_below (lo := b) hab
            (Memory.wfFrom_cons.mpr ⟨Nat.le_refl b, w'.2⟩)
        · rfl
      · rfl
    · split
      · rename_i hab
        subst hab
        split
        · rename_i hv
          split
          · rename_i hc
            subst hc hv
            exact Memory.read_below (Nat.lt_succ_self c) w'.2.2.2
          · rename_i hc
            simp [Memory.read, hc]
        · by_cases hc : c = a <;> simp [Memory.read, hc]
      · rename_i hab
        by_cases hc : c = b
        · have : c ≠ a := by omega
          subst hc
          simp [Memory.read, this]
        · simp only [Memory.read, hc, if_false]
          exact ih w'.2.2.2

/-- Reading after a write gives the byte written at its address, and what was there elsewhere. -/
theorem Memory.read_write {a : Nat} {v : Byte} {mem : Memory} (w : mem.wf = true) (c : Nat) :
    (mem.write a v).read c = if c = a then v else mem.read c :=
  Memory.read_write_from w c

theorem Memory.wf_nil : Memory.wf [] = true := rfl

/-- The deposit of an image that fits keeps the canonical form. -/
theorem Memory.wf_deposit {a : Nat} {image : List Byte} (h : a + image.length ≤ memSize)
    {mem : Memory} (w : mem.wf = true) : (deposit a image mem).wf = true := by
  induction image generalizing a mem with
  | nil => exact w
  | cons b rest ih =>
    simp only [List.length_cons] at h
    exact ih (by omega) (Memory.wf_write (by omega) b w)

end Sys2Proof.Machine
end

