-- ==== Sys2Proof/Laws/State.lean ====
section
/-! SUPPORT. What each shared update leaves in each field of State. -/

namespace Sys2Proof.Machine

@[simp] theorem withMem_mem (mem : Memory) (s : State) : (State.withMem mem s).mem = mem := rfl
@[simp] theorem withMem_x (mem : Memory) (s : State) : (State.withMem mem s).x = s.x := rfl
@[simp] theorem withMem_pc (mem : Memory) (s : State) : (State.withMem mem s).pc = s.pc := rfl
@[simp] theorem withMem_flags (mem : Memory) (s : State) : (State.withMem mem s).flags = s.flags := rfl
@[simp] theorem withMem_run (mem : Memory) (s : State) : (State.withMem mem s).run = s.run := rfl
@[simp] theorem withMem_fault (mem : Memory) (s : State) : (State.withMem mem s).fault = s.fault := rfl
@[simp] theorem withMem_out (mem : Memory) (s : State) : (State.withMem mem s).out = s.out := rfl

@[simp] theorem setReg_mem (i : RegIdx) (v : Int) (s : State) : (setReg i v s).mem = s.mem := rfl
@[simp] theorem setReg_x (i : RegIdx) (v : Int) (s : State) : (setReg i v s).x = s.x.set i (BitVec.ofInt 8 v) := rfl
@[simp] theorem setReg_pc (i : RegIdx) (v : Int) (s : State) : (setReg i v s).pc = s.pc := rfl
@[simp] theorem setReg_flags (i : RegIdx) (v : Int) (s : State) : (setReg i v s).flags = s.flags := rfl
@[simp] theorem setReg_run (i : RegIdx) (v : Int) (s : State) : (setReg i v s).run = s.run := rfl
@[simp] theorem setReg_fault (i : RegIdx) (v : Int) (s : State) : (setReg i v s).fault = s.fault := rfl
@[simp] theorem setReg_out (i : RegIdx) (v : Int) (s : State) : (setReg i v s).out = s.out := rfl

@[simp] theorem advance_mem (o : Op) (s : State) : (advance o s).mem = s.mem := rfl
@[simp] theorem advance_x (o : Op) (s : State) : (advance o s).x = s.x := rfl
@[simp] theorem advance_pc (o : Op) (s : State) : (advance o s).pc = s.pc + o.width := rfl
@[simp] theorem advance_flags (o : Op) (s : State) : (advance o s).flags = s.flags := rfl
@[simp] theorem advance_run (o : Op) (s : State) : (advance o s).run = s.run := rfl
@[simp] theorem advance_fault (o : Op) (s : State) : (advance o s).fault = s.fault := rfl
@[simp] theorem advance_out (o : Op) (s : State) : (advance o s).out = s.out := rfl

@[simp] theorem setPc_mem (b : Byte) (s : State) : (setPc b s).mem = s.mem := rfl
@[simp] theorem setPc_x (b : Byte) (s : State) : (setPc b s).x = s.x := rfl
@[simp] theorem setPc_pc (b : Byte) (s : State) : (setPc b s).pc = b.toNat := rfl
@[simp] theorem setPc_flags (b : Byte) (s : State) : (setPc b s).flags = s.flags := rfl
@[simp] theorem setPc_run (b : Byte) (s : State) : (setPc b s).run = s.run := rfl
@[simp] theorem setPc_fault (b : Byte) (s : State) : (setPc b s).fault = s.fault := rfl
@[simp] theorem setPc_out (b : Byte) (s : State) : (setPc b s).out = s.out := rfl

@[simp] theorem halt_mem (s : State) : (halt s).mem = s.mem := rfl
@[simp] theorem halt_x (s : State) : (halt s).x = s.x := rfl
@[simp] theorem halt_pc (s : State) : (halt s).pc = s.pc := rfl
@[simp] theorem halt_flags (s : State) : (halt s).flags = s.flags := rfl
@[simp] theorem halt_run (s : State) : (halt s).run = .halted := rfl
@[simp] theorem halt_fault (s : State) : (halt s).fault = s.fault := rfl
@[simp] theorem halt_out (s : State) : (halt s).out = s.out := rfl

@[simp] theorem setFlags_mem (fl : Flags) (s : State) : (setFlags fl s).mem = s.mem := rfl
@[simp] theorem setFlags_x (fl : Flags) (s : State) : (setFlags fl s).x = s.x := rfl
@[simp] theorem setFlags_pc (fl : Flags) (s : State) : (setFlags fl s).pc = s.pc := rfl
@[simp] theorem setFlags_flags (fl : Flags) (s : State) : (setFlags fl s).flags = fl := rfl
@[simp] theorem setFlags_run (fl : Flags) (s : State) : (setFlags fl s).run = s.run := rfl
@[simp] theorem setFlags_fault (fl : Flags) (s : State) : (setFlags fl s).fault = s.fault := rfl
@[simp] theorem setFlags_out (fl : Flags) (s : State) : (setFlags fl s).out = s.out := rfl

@[simp] theorem emit_mem (v : Byte) (s : State) : (emit v s).mem = s.mem := rfl
@[simp] theorem emit_x (v : Byte) (s : State) : (emit v s).x = s.x := rfl
@[simp] theorem emit_pc (v : Byte) (s : State) : (emit v s).pc = s.pc := rfl
@[simp] theorem emit_flags (v : Byte) (s : State) : (emit v s).flags = s.flags := rfl
@[simp] theorem emit_run (v : Byte) (s : State) : (emit v s).run = s.run := rfl
@[simp] theorem emit_fault (v : Byte) (s : State) : (emit v s).fault = s.fault := rfl
@[simp] theorem emit_out (v : Byte) (s : State) : (emit v s).out = s.out ++ [v] := rfl

@[simp] theorem takeFault_mem (f : Fault) (s : State) : (takeFault f s).mem = s.mem := rfl
@[simp] theorem takeFault_x (f : Fault) (s : State) : (takeFault f s).x = s.x := rfl
@[simp] theorem takeFault_pc (f : Fault) (s : State) : (takeFault f s).pc = s.pc := rfl
@[simp] theorem takeFault_flags (f : Fault) (s : State) : (takeFault f s).flags = s.flags := rfl
@[simp] theorem takeFault_run (f : Fault) (s : State) : (takeFault f s).run = .faulted := rfl
@[simp] theorem takeFault_fault (f : Fault) (s : State) : (takeFault f s).fault = some (faultRecord f s) := rfl
@[simp] theorem takeFault_out (f : Fault) (s : State) : (takeFault f s).out = s.out := rfl

end Sys2Proof.Machine
end

