-- ==== Sys2Proof/Laws/Ops.lean ====
section
/-! SUPPORT. What each shared operation can do, said once. -/

namespace Sys2Proof.Machine

/-! ### Memory accesses -/

theorem memRead_ok_iff {a : Nat} {s : State} {v : Byte} :
    memRead a s = .ok v ↔ a < 256 ∧ v = s.byteAt a := by
  by_cases h : a < 256 <;> simp [memRead, memSize, h, eq_comm]

theorem memRead_error_iff {a : Nat} {s : State} {f : Fault} :
    memRead a s = .error f ↔ 256 ≤ a ∧ f = .outOfBounds a := by
  by_cases h : a < 256 <;> simp [memRead, memSize, h, eq_comm]
  omega

theorem memWrite_ok_iff {a : Nat} {v : Byte} {s t : State} :
    memWrite a v s = .ok t ↔ a < 256 ∧ t = s.withMem (s.mem.write a v) := by
  by_cases h : a < 256 <;> simp [memWrite, memSize, h, eq_comm]

theorem memWrite_error_iff {a : Nat} {v : Byte} {s : State} {f : Fault} :
    memWrite a v s = .error f ↔ 256 ≤ a ∧ f = .outOfBounds a := by
  by_cases h : a < 256 <;> simp [memWrite, memSize, h, eq_comm]
  omega

/-- An access through the Stack Pointer is in range: its address is a byte (R54). -/
theorem loadTop_eq (s : State) : loadTop s = .ok (s.byteAt (reg spIdx s).toNat) :=
  memRead_ok_iff.mpr ⟨(reg spIdx s).isLt, rfl⟩

theorem storeTop_eq (v : Byte) (s : State) :
    storeTop v s = .ok (s.withMem (s.mem.write (reg spIdx s).toNat v)) :=
  memWrite_ok_iff.mpr ⟨(reg spIdx s).isLt, rfl⟩

/-! ### Registers -/

theorem reg_setReg (i j : RegIdx) (v : Int) (s : State) :
    reg j (setReg i v s) = if i = j then BitVec.ofInt 8 v else reg j s := by
  simp [reg, Vector.getElem_set, Fin.ext_iff]

@[simp] theorem ofInt_toNat (b : Byte) : BitVec.ofInt 8 (b.toNat : Int) = b := by
  apply BitVec.eq_of_toNat_eq
  simp only [BitVec.toNat_ofInt]
  have := b.isLt
  omega

@[simp] theorem ofInt_pred (b : Byte) : BitVec.ofInt 8 ((b.toNat : Int) - 1) = b - 1 := by
  apply BitVec.eq_of_toNat_eq
  have h1 : (1 : Byte).toNat = 1 := rfl
  simp only [BitVec.toNat_ofInt, BitVec.toNat_sub, h1]
  have := b.isLt
  omega

@[simp] theorem ofInt_succ (b : Byte) : BitVec.ofInt 8 ((b.toNat : Int) + 1) = b + 1 := by
  apply BitVec.eq_of_toNat_eq
  have h1 : (1 : Byte).toNat = 1 := rfl
  simp only [BitVec.toNat_ofInt, BitVec.toNat_add, h1]
  have := b.isLt
  omega

/-- The decrement of the Stack Pointer is the wrapping subtraction of 1 (R140). -/
theorem decSp_eq (s : State) : decSp s = { s with x := s.x.set 7 (s.x[7] - 1) } := by
  simp [decSp, setReg, reg]

/-- The increment of the Stack Pointer is the wrapping addition of 1 (R140). -/
theorem incSp_eq (s : State) : incSp s = { s with x := s.x.set 7 (s.x[7] + 1) } := by
  simp [incSp, setReg, reg]

/-! ### Operand check -/

theorem checkReg_ok {b : Byte} (h : b.toNat < 8) : checkReg b = .ok ⟨b.toNat, h⟩ := by
  simp [checkReg, h]

theorem checkReg_error {b : Byte} (h : 8 ≤ b.toNat) : checkReg b = .error (.invalidRegister b) := by
  simp [checkReg, Nat.not_lt.mpr h]

theorem checkReg_ok_iff {b : Byte} {r : RegIdx} : checkReg b = .ok r ↔ r.val = b.toNat := by
  have hr := r.isLt
  by_cases h : b.toNat < 8
  · simp [checkReg_ok h, Fin.ext_iff, eq_comm]
  · simp only [checkReg_error (Nat.not_lt.mp h)]
    constructor
    · intro e; cases e
    · intro e; omega

/-- An instruction is well formed, or has a first register byte of 8 or more (R93). -/
theorem wellFormed_or_bad (i : Instr) :
    i.WellFormed ∨ ∃ b, i.regFields.find? (fun b => decide (8 ≤ b.toNat)) = some b := by
  cases h : i.regFields.find? (fun b => decide (8 ≤ b.toNat)) with
  | some b => exact .inr ⟨b, rfl⟩
  | none =>
    refine .inl fun b hb => ?_
    have := List.find?_eq_none.mp h b hb
    simp only [decide_eq_true_eq] at this
    omega

/-! ### Handlers as chains of checks -/

theorem bind_ok {α β : Type} (a : α) (f : α → Except Fault β) : (Except.ok a >>= f) = f a := rfl

theorem bind_error {α β : Type} (e : Fault) (f : α → Except Fault β) :
    (Except.error e >>= f) = Except.error e := rfl

theorem pure_eq_ok {α : Type} (a : α) : (pure a : Except Fault α) = .ok a := rfl

theorem ofNat_mod_256 (n : Nat) : BitVec.ofNat 8 (n % 256) = BitVec.ofNat 8 n := by
  apply BitVec.eq_of_toNat_eq
  simp

/-! ### Concluding a step -/

@[simp] theorem conclude_ok (s t : State) : conclude s (.ok t) = .next t := rfl

@[simp] theorem conclude_error (s : State) (f : Fault) :
    conclude s (.error f) = .next (takeFault f s) := rfl

/-- What MUL, ADD and CMP share, when both register bytes name registers. -/
theorem execAlu_ok {id : AluId} {o : Op} {ra rb : Byte} {r q : RegIdx} {v : AluResult} {s : State}
    (hr : checkReg ra = .ok r) (hq : checkReg rb = .ok q)
    (hv : alu id (reg r s) (reg q s) = .ok v) :
    execAlu id o ra rb s = .next (advance o (writeAlu r v s)) := by
  simp only [execAlu, hr, hq, hv, bind_ok, pure_eq_ok, conclude_ok]

/-- What the jumps share, when the register byte names a register. -/
theorem jumpIf_ok {taken : Bool} {o : Op} {ra : Byte} {r : RegIdx} {s : State}
    (hr : checkReg ra = .ok r) :
    jumpIf taken o ra s = .next (if taken then setPc (reg r s) s else advance o s) := by
  simp only [jumpIf, hr, bind_ok, pure_eq_ok, conclude_ok]

/-- A handler always ends in a next state. -/
theorem conclude_next (s : State) (e : Except Fault State) : ∃ t, conclude s e = .next t := by
  cases e with
  | ok t => exact ⟨t, rfl⟩
  | error f => exact ⟨_, rfl⟩

/-! ### Fetch -/

/-- The fetch succeeds exactly when pc ≤ 253, with the three bytes at pc (R91). -/
theorem fetch_ok {s : State} (h : s.pc ≤ 253) :
    fetch s = .ok (s.byteAt s.pc, s.byteAt (s.pc + 1), s.byteAt (s.pc + 2)) := by
  have h0 : memRead s.pc s = .ok (s.byteAt s.pc) := memRead_ok_iff.mpr ⟨by omega, rfl⟩
  have h1 : memRead (s.pc + 1) s = .ok (s.byteAt (s.pc + 1)) := memRead_ok_iff.mpr ⟨by omega, rfl⟩
  have h2 : memRead (s.pc + 2) s = .ok (s.byteAt (s.pc + 2)) := memRead_ok_iff.mpr ⟨by omega, rfl⟩
  simp only [fetch, h0, h1, h2]
  rfl

/-- Otherwise it raises OutOfBounds at the first of the three addresses that is out of range (R171). -/
theorem fetch_error {s : State} (h : 254 ≤ s.pc) :
    fetch s = .error (.outOfBounds (max s.pc 256)) := by
  rcases Nat.lt_or_ge s.pc 256 with h0 | h0
  · have e0 : memRead s.pc s = .ok (s.byteAt s.pc) := memRead_ok_iff.mpr ⟨h0, rfl⟩
    rcases Nat.lt_or_ge (s.pc + 1) 256 with h1 | h1
    · have e1 : memRead (s.pc + 1) s = .ok (s.byteAt (s.pc + 1)) := memRead_ok_iff.mpr ⟨h1, rfl⟩
      have e2 : memRead (s.pc + 2) s = .error (.outOfBounds (s.pc + 2)) :=
        memRead_error_iff.mpr ⟨by omega, rfl⟩
      have e3 : max s.pc 256 = s.pc + 2 := by omega
      simp only [fetch, e0, e1, e2, e3]
      rfl
    · have e1 : memRead (s.pc + 1) s = .error (.outOfBounds (s.pc + 1)) :=
        memRead_error_iff.mpr ⟨h1, rfl⟩
      have e3 : max s.pc 256 = s.pc + 1 := by omega
      simp only [fetch, e0, e1, e3]
      rfl
  · have e0 : memRead s.pc s = .error (.outOfBounds s.pc) := memRead_error_iff.mpr ⟨h0, rfl⟩
    have e3 : max s.pc 256 = s.pc := by omega
    simp only [fetch, e0, e3]
    rfl

/-- Fetch and decode, where the fetch succeeds. -/
theorem fetchInstr_ok {m : OpcodeMap} {s : State} (h : s.pc ≤ 253) :
    fetchInstr m s =
      match decode m (s.byteAt s.pc) (s.byteAt (s.pc + 1)) (s.byteAt (s.pc + 2)) with
      | .ok i => .ok i
      | .error _ => .error .illegalInstruction := by
  simp only [fetchInstr, fetch_ok h, bind_ok]
  cases decode m (s.byteAt s.pc) (s.byteAt (s.pc + 1)) (s.byteAt (s.pc + 2)) <;> rfl

/-- Fetch and decode, where the fetch fails: decode is not reached (R175). -/
theorem fetchInstr_error {m : OpcodeMap} {s : State} (h : 254 ≤ s.pc) :
    fetchInstr m s = .error (.outOfBounds (max s.pc 256)) := by
  simp only [fetchInstr, fetch_error h, bind_error]

/-- What fetch and decode can answer: an instruction assembled from the bytes at pc by an operation
that has the opcode byte, or one of the two conditions. -/
theorem fetchInstr_cases (m : OpcodeMap) (s : State) :
    (254 ≤ s.pc ∧ fetchInstr m s = .error (.outOfBounds (max s.pc 256))) ∨
    (s.pc ≤ 253 ∧ (∀ o, m o ≠ s.byteAt s.pc) ∧ fetchInstr m s = .error .illegalInstruction) ∨
    (s.pc ≤ 253 ∧ ∃ o, m o = s.byteAt s.pc ∧
      fetchInstr m s = .ok (assemble o (s.byteAt (s.pc + 1)) (s.byteAt (s.pc + 2)))) := by
  rcases Nat.lt_or_ge s.pc 254 with hp | hp
  · have hp : s.pc ≤ 253 := by omega
    cases hl : lookup m (s.byteAt s.pc) with
    | none =>
      exact .inr (.inl ⟨hp, lookup_none_iff.mp hl, by simp only [fetchInstr_ok hp, decode, hl]⟩)
    | some e =>
      exact .inr (.inr ⟨hp, e.op, (lookup_some hl).2.1, by simp only [fetchInstr_ok hp, decode, hl]⟩)
  · exact .inl ⟨hp, fetchInstr_error hp⟩

end Sys2Proof.Machine
end

