-- ==== Sys2Proof/Laws/PerInstr.lean ====
section
/-! SUPPORT. Statements about every instruction as syntax, one lemma per constructor. -/

namespace Sys2Proof.Laws.EncodedWidth

/-- The encoding of an instruction has as many bytes as the Dispatch Table gives its operation,
begins with the operation's opcode byte, and holds every register field among its operand bytes. -/
def Statement (i : Instr) : Prop :=
  ∀ m : OpcodeMap, (encode m i).length = i.op.width ∧ (encode m i).head? = some (m i.op) ∧
    i.regFields = i.operandBytes.take i.op.format.regFieldCount

theorem ldi (ra imm : Byte) : Statement (.ldi ra imm) := fun _ => ⟨rfl, rfl, rfl⟩
theorem prn (ra : Byte) : Statement (.prn ra) := fun _ => ⟨rfl, rfl, rfl⟩
theorem hlt : Statement .hlt := fun _ => ⟨rfl, rfl, rfl⟩
theorem mul (ra rb : Byte) : Statement (.mul ra rb) := fun _ => ⟨rfl, rfl, rfl⟩
theorem add (ra rb : Byte) : Statement (.add ra rb) := fun _ => ⟨rfl, rfl, rfl⟩
theorem cmp (ra rb : Byte) : Statement (.cmp ra rb) := fun _ => ⟨rfl, rfl, rfl⟩
theorem push (ra : Byte) : Statement (.push ra) := fun _ => ⟨rfl, rfl, rfl⟩
theorem pop (ra : Byte) : Statement (.pop ra) := fun _ => ⟨rfl, rfl, rfl⟩
theorem call (ra : Byte) : Statement (.call ra) := fun _ => ⟨rfl, rfl, rfl⟩
theorem ret : Statement .ret := fun _ => ⟨rfl, rfl, rfl⟩
theorem jmp (ra : Byte) : Statement (.jmp ra) := fun _ => ⟨rfl, rfl, rfl⟩
theorem jeq (ra : Byte) : Statement (.jeq ra) := fun _ => ⟨rfl, rfl, rfl⟩
theorem jne (ra : Byte) : Statement (.jne ra) := fun _ => ⟨rfl, rfl, rfl⟩

end Sys2Proof.Laws.EncodedWidth
end

