-- ==== Sys2Proof/Tests/Slice0.lean ====
section
/-! SUPPORT. Tests: words decoded, ill-formed instructions refused, single steps taken from spec/95_test_vectors.md, and witnesses for the hypotheses of the statements. Every expected value is the spec's. -/

namespace Sys2Proof.Tests

open Sys2Proof Sys2Proof.Machine

/-! ### Decoding: one word per constructor, bit by bit from 30_encoding.md R71 and R75 -/

theorem test_decode_ldi : decode defaultOpcodeMap 0b10000010 0b00000111 0b01000000 = .ok (.ldi 7 64) := by decide
theorem test_decode_prn : decode defaultOpcodeMap 0b01000111 0b00000101 0b11111111 = .ok (.prn 5) := by decide
theorem test_decode_hlt : decode defaultOpcodeMap 0b00000001 0b10000010 0b01000111 = .ok .hlt := by decide
theorem test_decode_mul : decode defaultOpcodeMap 0b10100010 0b00000110 0b00000011 = .ok (.mul 6 3) := by decide
theorem test_decode_add : decode defaultOpcodeMap 0b10100000 0b00000010 0b00000101 = .ok (.add 2 5) := by decide
theorem test_decode_cmp : decode defaultOpcodeMap 0b10100111 0b00000001 0b00000100 = .ok (.cmp 1 4) := by decide
theorem test_decode_push : decode defaultOpcodeMap 0b01000101 0b00000011 0b00000000 = .ok (.push 3) := by decide
theorem test_decode_pop : decode defaultOpcodeMap 0b01000110 0b00000010 0b00000000 = .ok (.pop 2) := by decide
theorem test_decode_call : decode defaultOpcodeMap 0b01010000 0b00000001 0b00000000 = .ok (.call 1) := by decide
theorem test_decode_ret : decode defaultOpcodeMap 0b00010001 0b00000000 0b00000000 = .ok .ret := by decide
theorem test_decode_jmp : decode defaultOpcodeMap 0b01010100 0b00000110 0b00000000 = .ok (.jmp 6) := by decide
theorem test_decode_jeq : decode defaultOpcodeMap 0b01010101 0b00000111 0b00000000 = .ok (.jeq 7) := by decide
theorem test_decode_jne : decode defaultOpcodeMap 0b01010110 0b00000100 0b00000000 = .ok (.jne 4) := by decide

/-- LS-8's Subtract byte and zeroed memory are illegal (R76, C2). -/
theorem test_decode_illegal : decode defaultOpcodeMap 0xA1 0 1 = .error (.illegalOpcode 0xA1) ∧
    decode defaultOpcodeMap 0 0 0 = .error (.illegalOpcode 0) := by decide

/-- The image of program P1's first instruction, and of a Call (P3). -/
theorem test_encode : encode defaultOpcodeMap (.ldi 0 8) = [0x82, 0x00, 0x08] ∧
    encode defaultOpcodeMap (.call 1) = [0x50, 0x01] ∧ encode defaultOpcodeMap .hlt = [0x01] := by decide

theorem test_decodeTableWord : decodeTableWord 24 0x080082 = some (.ldi 0 8) ∧
    decodeTableWord 8 0xFFFF47 = some (.prn 0) ∧ decodeTableWord 8 0 = none := by decide

/-! ### Well-formedness: each form with a register byte of 8 or more is refused -/

theorem test_illformed_one_register :
    ¬ (Instr.ldi 8 0).WellFormed ∧ ¬ (Instr.prn 12).WellFormed ∧ ¬ (Instr.push 8).WellFormed ∧
    ¬ (Instr.pop 255).WellFormed ∧ ¬ (Instr.call 15).WellFormed ∧ ¬ (Instr.jmp 8).WellFormed ∧
    ¬ (Instr.jeq 9).WellFormed ∧ ¬ (Instr.jne 128).WellFormed := by decide

theorem test_illformed_first_of_two :
    ¬ (Instr.mul 8 0).WellFormed ∧ ¬ (Instr.add 9 0).WellFormed ∧ ¬ (Instr.cmp 9 0).WellFormed := by decide

theorem test_illformed_second_of_two :
    ¬ (Instr.mul 0 8).WellFormed ∧ ¬ (Instr.add 0 8).WellFormed ∧ ¬ (Instr.cmp 7 255).WellFormed := by decide

/-- Register 7 is legal, the immediate may be any byte, and F1 has no field. -/
theorem test_wellformed : (Instr.ldi 7 255).WellFormed ∧ (Instr.cmp 7 7).WellFormed ∧
    Instr.hlt.WellFormed ∧ Instr.ret.WellFormed := by decide

/-! ### Single steps (95_test_vectors.md) -/

/-- A state after reset with an instruction's bytes at `pc`. -/
def at' (pc : Nat) (b0 b1 b2 : Byte) : State :=
  { State.reset with pc := pc, mem := (((Memory.write [] pc b0).write (pc + 1) b1).write (pc + 2) b2) }

/-- A register set by hand. -/
def rset (i : RegIdx) (v : Byte) (s : State) : State := { s with x := s.x.set i v }

/-- A memory cell set by hand. -/
def mset (a : Nat) (v : Byte) (s : State) : State := { s with mem := s.mem.write a v }

/-- Flags set by hand. -/
def fset (e g l : Bool) (s : State) : State := { s with flags := { e := e, g := g, l := l } }

/-- The state after one step under the default OPCODE_MAP. -/
def after (s : State) : State := stepped defaultOpcodeMap s

/-- V-LDI-2: R7 is SP. -/
theorem test_ldi_sp : (after (at' 0 0x82 0x07 0x40)).x[7] = 0x40 ∧ (after (at' 0 0x82 0x07 0x40)).pc = 3 := by decide
/-- V-LDI-4. -/
theorem test_ldi_bad_register : (after (at' 0 0x82 0x08 0x01)).fault =
    some ⟨.invalidRegister, 0, some 0x82, none, some 0x08⟩ := by decide
/-- V-PRN-2. -/
theorem test_prn : (after (rset 5 0xFF (at' 0 0x47 0x05 0))).out = [255] := by decide
/-- V-PRN-3. -/
theorem test_prn_bad_register : (after (at' 0 0x47 0x0C 0)).out = [] ∧
    (after (at' 0 0x47 0x0C 0)).run = .faulted := by decide
/-- V-HLT-2. -/
theorem test_hlt_at_253 : (after (at' 253 0x01 0 0)).run = .halted ∧ (after (at' 253 0x01 0 0)).pc = 253 := by decide
/-- V-HLT-3. -/
theorem test_hlt_at_254 : (after (mset 254 0x01 { State.reset with pc := 254 })).fault =
    some ⟨.outOfBounds, 254, some 0x01, some 256, none⟩ := by decide
/-- V-MUL-2: 65025 mod 256 = 1. -/
theorem test_mul_square : (after (rset 0 0xFF (at' 0 0xA2 0 0))).x[0] = 1 := by decide
/-- V-MUL-1. -/
theorem test_mul : (after (rset 1 6 (rset 0 5 (at' 0 0xA2 0 1)))).x[0] = 30 := by decide
/-- V-ADD-1. -/
theorem test_add_wraps : (after (rset 1 0x0A (rset 0 0xFA (at' 0 0xA0 0 1)))).x[0] = 4 := by decide
/-- V-ADD-4: rb is checked. -/
theorem test_add_bad_second : (after (at' 0 0xA0 0 8)).fault =
    some ⟨.invalidRegister, 0, some 0xA0, none, some 0x08⟩ := by decide
/-- V-CMP-4: unsigned. -/
theorem test_cmp_unsigned : (after (rset 1 0x64 (rset 0 0xC8 (at' 0 0xA7 0 1)))).flags = ⟨false, true, false⟩ := by decide
/-- V-CMP-5: the old flags are replaced. -/
theorem test_cmp_replaces : (after (fset false false true (rset 2 7 (at' 0 0xA7 2 2)))).flags = ⟨true, false, false⟩ := by decide
/-- V-PUSH-2: SP wraps. -/
theorem test_push_wraps : (after (rset 7 0 (rset 0 0x33 (at' 0 0x45 0 0)))).x[7] = 0xFF ∧
    (after (rset 7 0 (rset 0 0x33 (at' 0 0x45 0 0)))).byteAt 0xFF = 0x33 := by decide
/-- V-PUSH-3: PUSH R7 writes the decremented SP. -/
theorem test_push_sp : (after (rset 7 0x80 (at' 0 0x45 7 0))).byteAt 0x7F = 0x7F := by decide
/-- V-POP-2: SP wraps. -/
theorem test_pop_wraps : (after (mset 0xFF 0x44 (at' 0 0x46 1 0))).x[1] = 0x44 ∧
    (after (mset 0xFF 0x44 (at' 0 0x46 1 0))).x[7] = 0 := by decide
/-- V-POP-3: POP R7 ends with mem[SP] + 1. -/
theorem test_pop_sp : (after (mset 0x80 0x10 (rset 7 0x80 (at' 0 0x46 7 0)))).x[7] = 0x11 := by decide
/-- V-CALL-2: CALL R7 goes to the decremented SP, and the return address is pc + 2. -/
theorem test_call_sp : (after (rset 7 0x80 (at' 10 0x50 7 0))).pc = 0x7F ∧
    (after (rset 7 0x80 (at' 10 0x50 7 0))).byteAt 0x7F = 0x0C := by decide
/-- V-CALL-3: the largest return address. -/
theorem test_call_at_253 : (after (at' 253 0x50 1 0)).byteAt 0xFE = 0xFF ∧ (after (at' 253 0x50 1 0)).pc = 0 := by decide
/-- V-RET-1. -/
theorem test_ret : (after (mset 0xFE 8 (rset 7 0xFE (at' 20 0x11 0 0)))).pc = 8 ∧
    (after (mset 0xFE 8 (rset 7 0xFE (at' 20 0x11 0 0)))).x[7] = 0xFF := by decide
/-- V-RET-2: SP wraps. -/
theorem test_ret_wraps : (after (mset 0xFF 7 (at' 20 0x11 0 0))).x[7] = 0 := by decide
/-- V-JMP-3: a target of 254 is accepted. -/
theorem test_jmp : (after (rset 0 0xFE (at' 0 0x54 0 0))).pc = 254 ∧ (after (rset 0 0xFE (at' 0 0x54 0 0))).run = .running := by decide
/-- V-JEQ-1 and V-JEQ-3. -/
theorem test_jeq : (after (fset true false false (rset 3 12 (at' 20 0x55 3 0)))).pc = 12 ∧
    (after (rset 3 12 (at' 20 0x55 3 0))).pc = 22 := by decide
/-- V-JEQ-4: ra is checked although the jump would not be taken. -/
theorem test_jeq_bad_register : (after (at' 20 0x55 9 0)).fault =
    some ⟨.invalidRegister, 20, some 0x55, none, some 0x09⟩ := by decide
/-- V-JNE-3: taken before any Compare. -/
theorem test_jne_taken : (after (rset 3 12 (at' 20 0x56 3 0))).pc = 12 := by decide
/-- V-JNE-2. -/
theorem test_jne_not_taken : (after (fset true false false (rset 3 12 (at' 20 0x56 3 0)))).pc = 22 := by decide
/-- V-MEM-2 and V-FLT-3: fetch faults come first. -/
theorem test_fetch_faults :
    (after { State.reset with pc := 256 }).fault = some ⟨.outOfBounds, 256, none, some 256, none⟩ ∧
    (after (mset 254 0xFF { State.reset with pc := 254 })).fault =
      some ⟨.outOfBounds, 254, some 0xFF, some 256, none⟩ := by decide
/-- V-FLT-1 and V-FLT-4: an illegal opcode keeps pc; ra is reported before rb. -/
theorem test_decode_faults :
    (after { State.reset with pc := 3 }).fault = some ⟨.illegalInstruction, 3, some 0, none, none⟩ ∧
    (after (at' 0 0xA0 9 8)).fault = some ⟨.invalidRegister, 0, some 0xA0, none, some 9⟩ := by decide
/-- V-ALU-2 and V-ALU-5. -/
theorem test_alu : alu .sub 3 5 = .ok (.value 0xFE) ∧ alu .cmp 0 0xFF = .ok (.flags ⟨false, false, true⟩) := by decide
/-- The first program word runs right after reset. -/
theorem test_withFetchWord : after (State.reset.withFetchWord 24 0x080082) =
    { State.reset with pc := 3, x := #v[8, 0, 0, 0, 0, 0, 0, 0xFF], mem := [(0, 0x82), (2, 8)] } := by decide
/-- W6, the first step of program P1, from construction and deposit. -/
theorem test_construct : (construct defaultConfig [0x82, 0x00, 0x08, 0x47, 0x00, 0x01]).toOption.map
    (fun s => ((after s).x[0], (after s).pc)) = some (8, 3) := by decide
/-- R192: an image of 257 bytes is refused; SP_INIT = 0 is refused (R190). -/
theorem test_construct_refused :
    (construct { defaultConfig with spInit := 0 } []).toOption = none ∧
    (construct { defaultConfig with opcodeMap := fun _ => 1 } []).toOption = none := by decide

/-- Program P2 of 95_test_vectors.md: the label `loop` stands for 0x0C. -/
def programP2 : List Line :=
  [.instr (.ldi 0 0), .instr (.ldi 1 1), .instr (.ldi 2 3), .ldiLabel 3 "loop", .label "loop",
   .instr (.add 0 1), .instr (.prn 0), .instr (.cmp 0 2), .instr (.jne 3), .instr .hlt]

/-- P2 as 95_test_vectors.md writes it, the label on the line of its instruction. -/
theorem test_read_program : readProgram
    [["LDI", "R0", "0"], ["LDI", "R1", "1"], ["LDI", "R2", "3"], ["LDI", "R3", "loop"],
     ["loop", ":", "ADD", "R0", "R1"], ["PRN", "R0"], ["CMP", "R0", "R2"], ["JNE", "R3"],
     ["HLT"]] = some programP2 := by decide
/-- The image that 95_test_vectors.md prints for P2. -/
theorem test_program_image : programImage defaultOpcodeMap programP2 = some
    [0x82, 0x00, 0x00, 0x82, 0x01, 0x01, 0x82, 0x02, 0x03, 0x82, 0x03, 0x0C, 0xA0, 0x00, 0x01,
     0x47, 0x00, 0xA7, 0x00, 0x02, 0x56, 0x03, 0x01] := by decide
/-- `.byte` at the end of program P7, and SP as a name for R7. -/
theorem test_program_byte : programImage defaultOpcodeMap [.instr (.push 0), .byte 0] = some [0x45, 0x00, 0x00] ∧
    registerNamed "SP" = some 7 ∧ registerNamed "R8" = none := by decide
/-- Lines of P2 and P7 in R78's notation, numbers in its three bases. -/
theorem test_read_line : readLine ["LDI", "R3", "loop"] = some (.ldiLabel 3 "loop") ∧
    readLine ["LDI", "SP", "0x0C"] = some (.instr (.ldi 7 12)) ∧
    readLine ["ADD", "R0", "R1"] = some (.instr (.add 0 1)) ∧
    readLine ["HLT"] = some (.instr .hlt) ∧ readLine ["loop", ":"] = some (.label "loop") ∧
    readLine [".byte", "0b101"] = some (.byte 5) := by decide
/-- No Subtract, no register 8, no number above 255, no missing operand. -/
theorem test_read_line_refused : readLine ["SUB", "R0", "R1"] = none ∧ readLine ["PRN", "R8"] = none ∧
    readLine [".byte", "256"] = none ∧ readLine ["MUL", "R0"] = none ∧
    readLine ["LDI", "R0", "256"] = none ∧ readLine ["256", ":"] = none := by decide
/-- An undefined label, a label defined twice, and a register byte that no name writes. -/
theorem test_program_refused : programImage defaultOpcodeMap [.ldiLabel 0 "x"] = none ∧
    programImage defaultOpcodeMap [.label "x", .label "x"] = none ∧
    programImage defaultOpcodeMap [.instr (.prn 8)] = none := by decide

/-! ### Witnesses: concrete states and operands that meet each statement's hypotheses -/

/-- DecodeOfEncodeIsIdentity, ConstructionRefusals. -/
theorem witness_default_config_legal : defaultConfig.Legal ∧ ([] : List Byte).length ≤ 256 := by decide
/-- ConstructionRefusals: the two refusing clauses. -/
theorem witness_refusals : (({ defaultConfig with spInit := 0 } : Config).spInit = 0) ∧
    256 < (List.replicate 257 (0 : Byte)).length :=
  ⟨rfl, by rw [List.length_replicate]; omega⟩
/-- DecodedBytesAreTheEncoding, OpcodeByteAloneSelectsTheHandler (both clauses). -/
theorem witness_decoded : decode defaultOpcodeMap 0x82 255 255 = .ok (.ldi 255 255) ∧
    decode defaultOpcodeMap 0xFF 0 0 = .error (.illegalOpcode 0xFF) := by decide
/-- UnassignedOpcodesAreIllegal: both clauses. -/
theorem witness_assigned_and_not : (∀ o ∈ Op.all, defaultOpcodeMap o ≠ 0xFF) ∧ defaultOpcodeMap .hlt = 0x01 := by decide
/-- UnusedOperandBytesAreIgnored: width 2 and width 1. -/
theorem witness_unused : (decode defaultOpcodeMap 0x47 5 9 = .ok (.prn 5) ∧ (Instr.prn 5).op.width ≤ 2) ∧
    decode defaultOpcodeMap 0x11 5 9 = .ok .ret ∧ Instr.ret.op.width = 1 := by decide
/-- RegisterWriteWrapsModulo256: another register. -/
theorem witness_other_register : (0 : RegIdx) ≠ 7 := by decide
/-- MemoryReadIsBounded, MemoryWriteSetsOneCell: both clauses at the boundary. -/
theorem witness_memory_bounds : State.reset.mem.wf = true ∧ 255 < 256 ∧ 256 ≤ 256 := by decide
/-- CanonicalMemoriesWithEqualCellsAreEqual. -/
theorem witness_equal_memories : Memory.wf [(0, 1), (255, 2)] = true ∧
    ∀ a, a < 256 → Memory.read [(0, 1), (255, 2)] a = Memory.read [(0, 1), (255, 2)] a :=
  ⟨by decide, fun _ _ => rfl⟩
/-- UnknownAluIdentifierIsInvalidAndUnreachable: the two clauses with hypotheses. -/
theorem witness_invalid_operation : alu (.other 7) 0 0 = .error .invalidOperation ∧
    ∃ s t : State, ∃ r, stepWith defaultOpcodeMap s = .next t ∧ t.fault = some r ∧ r.kind = .invalidOperation :=
  ⟨rfl, { State.reset with run := .faulted, fault := some ⟨.invalidOperation, 0, none, none, none⟩ },
    _, _, rfl, rfl, rfl⟩
/-- AluArithmeticLaws: the associativity clauses. -/
theorem witness_alu_values : alu .add 200 100 = .ok (.value 44) ∧ alu .mul 200 100 = .ok (.value 32) := by decide
/-- The effect statements, OnlyPrintAppendsToOutput, PushThenPopRestoresRegisters: register bytes at
the boundary, a state in canonical form. -/
theorem witness_register_bytes : (7 : Byte).toNat < 8 ∧ (0 : Byte).toNat < 8 ∧ State.reset.mem.wf = true := by decide
/-- CallEffect: the largest pc a Call can have. -/
theorem witness_call : (255 : Byte).toNat = (at' 253 0x50 7 0).pc + 2 ∧ (7 : Byte).toNat < 8 := by decide
/-- InvalidRegisterByteFaults: ra and rb. -/
theorem witness_bad_register :
    (Instr.add 8 9).regFields.find? (fun b => decide (8 ≤ b.toNat)) = some 8 ∧
    (Instr.add 7 255).regFields.find? (fun b => decide (8 ≤ b.toNat)) = some 255 := by decide
/-- WellFormedInstructionsComplete, PcUpdateFollowsTheOutcome: one of each constructor, and both E
clauses. -/
theorem witness_wellformed_all : ∀ i ∈ [Instr.ldi 7 255, .prn 7, .hlt, .mul 7 0, .add 7 0, .cmp 7 0,
    .push 7, .pop 7, .call 7, .ret, .jmp 7, .jeq 7, .jne 7], i.WellFormed := by decide
theorem witness_equal_flag : (fset true false false State.reset).flags.e = true ∧ State.reset.flags.e = false := by decide
/-- OnlyNamedRegistersChange: a register that does change. -/
theorem witness_register_changes : ∃ t, exec (.pop 7) State.reset = .next t ∧ t.x[(7 : RegIdx)] ≠ State.reset.x[(7 : RegIdx)] :=
  ⟨_, rfl, by decide⟩
/-- OnlyPushAndCallWriteMemory: the four clauses. -/
theorem witness_frames : (∃ t, exec (.pop 0) State.reset = .next t ∧ (∀ ra, Instr.pop 0 ≠ .push ra) ∧
      ∀ ra, Instr.pop 0 ≠ .call ra) ∧
    (∃ t, exec (.push 7) State.reset = .next t) ∧ (∃ t, exec (.call 7) State.reset = .next t) ∧
    State.reset.mem.wf = true ∧ State.reset.pc ≤ 253 ∧ 0 ≠ (State.reset.x[7] - 1).toNat :=
  ⟨⟨_, rfl, by simp, by simp⟩, ⟨_, rfl⟩, ⟨_, rfl⟩, by decide, by decide, by decide⟩
/-- FlagsAreWrittenByCompareAndOnlyEqualIsRead, OnlyPrintAppendsToOutput, MeaningsRaiseOnlyInvalidRegister. -/
theorem witness_not_cmp_not_prn : (∃ t, exec .hlt State.reset = .next t) ∧
    (∀ ra rb, Instr.hlt ≠ .cmp ra rb) ∧ (∀ ra, Instr.hlt ≠ .prn ra) ∧ (∀ ra, Instr.hlt ≠ .jeq ra) ∧
    ∀ ra, Instr.hlt ≠ .jne ra :=
  ⟨⟨_, rfl⟩, by simp, by simp, by simp, by simp⟩
/-- OnlyPrintAppendsToOutput: a step that does change out. -/
theorem witness_out_changes : ∃ t, stepWith defaultOpcodeMap (at' 0 0x47 7 0) = .next t ∧ t.out ≠ (at' 0 0x47 7 0).out :=
  ⟨_, rfl, by decide⟩
/-- OnlyHaltEntersHalted: a step into Halted. -/
theorem witness_halts : ∃ t, (at' 0 0x01 0 0).run = .running ∧
    stepWith defaultOpcodeMap (at' 0 0x01 0 0) = .next t ∧ t.run = .halted := ⟨_, rfl, rfl, by decide⟩
/-- StepRunsTheDecodedInstruction, at the highest start address. -/
theorem witness_step_runs : (at' 253 0xA0 7 1).run = .running ∧ (at' 253 0xA0 7 1).pc ≤ 253 ∧
    decode defaultOpcodeMap ((at' 253 0xA0 7 1).byteAt 253) ((at' 253 0xA0 7 1).byteAt 254)
      ((at' 253 0xA0 7 1).byteAt 255) = .ok (.add 7 1) := by decide
/-- UnknownOpcodeRaisesIllegalInstruction and the last clause of FetchAndDecodeFaultRecords. -/
theorem witness_unknown_opcode : (at' 253 0xA1 0 0).run = .running ∧ (at' 253 0xA1 0 0).pc ≤ 253 ∧
    lookup defaultOpcodeMap ((at' 253 0xA1 0 0).byteAt 253) = none ∧
    ∀ o ∈ Op.all, defaultOpcodeMap o ≠ (at' 253 0xA1 0 0).byteAt 253 := by decide
/-- FetchSucceedsExactlyUpTo253, FetchAndDecodeFaultRecords: pc 253, 254, 255, 256. -/
theorem witness_fetch_bounds : (at' 253 0xA0 0 1).pc = 253 ∧ (Instr.add 0 1).WellFormed ∧
    (Instr.add 0 1).op.width = 3 ∧ (at' 253 0xA0 0 1).run = .running ∧
    254 ≤ ({ State.reset with pc := 254 } : State).pc ∧ ({ State.reset with pc := 255 } : State).pc = 255 ∧
    256 ≤ ({ State.reset with pc := 256 } : State).pc := by decide
/-- FaultedStepsChangeNothingElse, StepRequestReply: a step into Faulted, with its report. -/
theorem witness_faults : ∃ t, State.reset.run = .running ∧ stepWith defaultOpcodeMap State.reset = .next t ∧
    t.run = .faulted ∧ (stepRequest defaultOpcodeMap State.reset).report.isSome = true :=
  ⟨_, rfl, rfl, by decide, by decide⟩
/-- StoppedMachinesDoNotChange, EndedRunsStayEnded: Halted and Faulted. -/
theorem witness_stopped : (after (at' 0 0x01 0 0)).run ≠ .running ∧ (after State.reset).run ≠ .running ∧
    (runFor defaultOpcodeMap 1 State.reset).ended = true := by decide
/-- CallThenReturnResumesAfterTheCall: the state right after the Call itself meets the conditions. -/
theorem witness_call_return : ∃ t v, exec (.call 1) State.reset = .next t ∧ State.reset.mem.wf = true ∧
    State.reset.pc ≤ 253 ∧ t.x[7] = t.x[7] ∧ exec .ret t = .next v := ⟨_, _, rfl, by decide, by decide, rfl, rfl⟩
/-- PushedByteIsFetchedNext, PUSH: the three clauses, with SP - 1 at 2, 3, 4, which are the next pc
and the two addresses after it. -/
theorem witness_pushed_byte : ∀ sp ∈ ([3, 4, 5] : List Byte), ∃ t b,
    exec (.push 0) (rset 7 sp (at' 0 0x45 0 0)) = .next t ∧ fetch t = .ok b ∧
    ((sp - 1).toNat = 2 ∨ (sp - 1).toNat = 3 ∨ (sp - 1).toNat = 4) := by
  intro sp h
  simp only [List.mem_cons, List.not_mem_nil, or_false] at h
  rcases h with rfl | rfl | rfl <;> exact ⟨_, _, rfl, rfl, by decide⟩
/-- PushedByteIsFetchedNext, CALL at 253, the highest pc: the three clauses, with SP - 1 at the target
0x64 and at the two addresses after it. -/
theorem witness_called_byte : ∀ sp ∈ ([0x65, 0x66, 0x67] : List Byte), ∃ t b,
    exec (.call 1) (rset 7 sp (rset 1 0x64 (at' 253 0x50 1 0))) = .next t ∧ fetch t = .ok b ∧
    ((sp - 1).toNat = t.pc ∨ (sp - 1).toNat = t.pc + 1 ∨ (sp - 1).toNat = t.pc + 2) := by
  intro sp h
  simp only [List.mem_cons, List.not_mem_nil, or_false] at h
  rcases h with rfl | rfl | rfl <;> exact ⟨_, _, rfl, rfl, by decide⟩
/-- ProgramImagePlacesEachLine: a program with a line of each kind. -/
theorem witness_program : ∃ image, programImage defaultOpcodeMap
    ([.ldiLabel 7 "end", .instr (.push 7)] ++ .label "end" :: [.byte 255]) = some image := ⟨_, rfl⟩
/-- The construction statements: a full image and an empty one. -/
theorem witness_constructed : ∃ s, construct defaultConfig [0x82, 0x00, 0x08] = .ok s := ⟨_, rfl⟩
theorem witness_other_registers : (6 : RegIdx) ≠ 7 := by decide
/-- StepKeepsTheMachineInvariant: a state that meets the invariant and its next state. -/
theorem witness_invariant : (at' 253 0x01 0 0).Inv defaultOpcodeMap ∧
    ∃ t, stepWith defaultOpcodeMap (at' 253 0x01 0 0) = .next t :=
  ⟨⟨rfl, rfl, by decide, by decide, by decide, fun _ h => by cases h⟩, _, rfl⟩
/-- DebugTraceShowsTheFetchWindow: with and without DEBUG_TRACE, and each byte at its highest pc. -/
theorem witness_trace : defaultConfig.debugTrace = true ∧
    ({ defaultConfig with debugTrace := false } : Config).debugTrace = false ∧
    ({ State.reset with pc := 255 } : State).pc < 256 ∧
    ({ State.reset with pc := 254 } : State).pc + 1 < 256 ∧ (at' 253 1 0 0).pc + 2 < 256 := by decide

end Sys2Proof.Tests
end

section
/-! Proofs about the state: registers, construction, flags and output (10_state.md). -/

namespace Sys2Proof.Machine

/-! ### What one instruction does, as a function of the state -/

/-- The register an operand byte names; the operand check accepts 0..7 only (R72). -/
def regOf (b : Byte) : RegIdx := Fin.ofNat 8 b.toNat

/-- The state with a byte stored at the Stack Pointer's address (R140). -/
def storeAtSp (v : Byte) (s : State) : State := s.withMem (s.mem.write (reg spIdx s).toNat v)

/-- The next state of a jump to x[r] (R160-R162). -/
def jumpEffect (taken : Bool) (o : Op) (r : RegIdx) (s : State) : State :=
  if taken then setPc (reg r s) s else advance o s

/-- The next state of a well-formed instruction (R102). -/
def effect : Instr → State → State
  | .ldi ra imm, s => advance .ldi (setReg (regOf ra) (immediate imm) s)
  | .prn ra, s => advance .prn (emit (reg (regOf ra) s) s)
  | .hlt, s => halt s
  | .mul ra rb, s => advance .mul (setReg (regOf ra)
      (BitVec.ofNat 8 ((reg (regOf ra) s).toNat * (reg (regOf rb) s).toNat)).toNat s)
  | .add ra rb, s => advance .add (setReg (regOf ra)
      (BitVec.ofNat 8 ((reg (regOf ra) s).toNat + (reg (regOf rb) s).toNat)).toNat s)
  | .cmp ra rb, s =>
      advance .cmp (setFlags (compareFlags (reg (regOf ra) s) (reg (regOf rb) s)) s)
  | .push ra, s => advance .push (storeAtSp (reg (regOf ra) (decSp s)) (decSp s))
  | .pop ra, s =>
      advance .pop (incSp (setReg (regOf ra) (s.byteAt (reg spIdx s).toNat).toNat s))
  | .call ra, s =>
      setPc (reg (regOf ra) (decSp s)) (storeAtSp (returnAddress s) (decSp s))
  | .ret, s => incSp (setPc (s.byteAt (reg spIdx s).toNat) s)
  | .jmp ra, s => jumpEffect true .jmp (regOf ra) s
  | .jeq ra, s => jumpEffect s.flags.e .jeq (regOf ra) s
  | .jne ra, s => jumpEffect (!s.flags.e) .jne (regOf ra) s

theorem regOf_eq {b : Byte} (h : b.toNat < 8) : regOf b = ⟨b.toNat, h⟩ :=
  Fin.ext (Nat.mod_eq_of_lt h)

/-- A register field of a well-formed instruction passes the operand check. -/
theorem checkReg_of_wellFormed {i : Instr} (hw : i.WellFormed) {b : Byte} (hb : b ∈ i.regFields) :
    checkReg b = .ok (regOf b) := by
  rw [regOf_eq (hw b hb), checkReg_ok (hw b hb)]

theorem exec_of_wellFormed {i : Instr} (hw : i.WellFormed) (s : State) :
    exec i s = .next (effect i s) := by
  have check := @checkReg_of_wellFormed i hw
  cases i with
  | hlt => rfl
  | ret => simp only [exec, execRet, loadTop_eq, bind_ok, pure_eq_ok, conclude_ok, effect]
  | mul ra rb =>
    exact execAlu_ok (id := .mul) (v := .value _) (check (.head _)) (check (.tail _ (.head _))) rfl
  | add ra rb =>
    exact execAlu_ok (id := .add) (v := .value _) (check (.head _)) (check (.tail _ (.head _))) rfl
  | cmp ra rb =>
    exact execAlu_ok (id := .cmp) (v := .flags _) (check (.head _)) (check (.tail _ (.head _))) rfl
  | jmp ra => exact jumpIf_ok (check (.head _))
  | jeq ra => exact jumpIf_ok (check (.head _))
  | jne ra => exact jumpIf_ok (check (.head _))
  | ldi ra imm =>
    simp only [exec, execLdi, check (.head _), bind_ok, pure_eq_ok, conclude_ok, effect]
  | prn ra => simp only [exec, execPrn, check (.head _), bind_ok, pure_eq_ok, conclude_ok, effect]
  | push ra =>
    simp only [exec, execPush, check (.head _), storeTop_eq, bind_ok, pure_eq_ok, conclude_ok, effect,
      storeAtSp]
  | pop ra =>
    simp only [exec, execPop, check (.head _), loadTop_eq, bind_ok, pure_eq_ok, conclude_ok, effect]
  | call ra =>
    simp only [exec, execCall, check (.head _), storeTop_eq, bind_ok, pure_eq_ok, conclude_ok, effect,
      storeAtSp]
    rfl

/-- A handler that begins with a bad register byte takes InvalidRegister (R93). -/
theorem conclude_checkReg_bad {b : Byte} (h : 8 ≤ b.toNat) (s : State)
    (f : RegIdx → Except Fault State) :
    conclude s (checkReg b >>= f) = .next (takeFault (.invalidRegister b) s) := by
  simp only [checkReg_error h, bind_error, conclude_error]

/-- The ALU's handlers check ra, then rb (R93). -/
theorem execAlu_bad {ra rb b : Byte}
    (h : [ra, rb].find? (fun b => decide (8 ≤ b.toNat)) = some b) (id : AluId) (o : Op) (s : State) :
    execAlu id o ra rb s = .next (takeFault (.invalidRegister b) s) := by
  rcases Nat.lt_or_ge ra.toNat 8 with ha | ha
  · obtain ⟨hb, rfl⟩ : 8 ≤ rb.toNat ∧ rb = b := by simpa [Nat.not_le.mpr ha] using h
    simp only [execAlu, checkReg_ok ha, bind_ok]
    exact conclude_checkReg_bad hb s _
  · obtain rfl : ra = b := by simpa [ha] using h
    exact conclude_checkReg_bad ha s _

/-- The first register byte of 8 or more is taken as InvalidRegister, before any effect (R93, R97). -/
theorem exec_of_badRegister {i : Instr} {b : Byte}
    (h : i.regFields.find? (fun b => decide (8 ≤ b.toNat)) = some b) (s : State) :
    exec i s = .next (takeFault (.invalidRegister b) s) := by
  have hb : 8 ≤ b.toNat := by simpa using List.find?_some h
  have hm := List.mem_of_find?_eq_some h
  cases i with
  | hlt => cases hm
  | ret => cases hm
  | mul ra rb => exact execAlu_bad h .mul .mul s
  | add ra rb => exact execAlu_bad h .add .add s
  | cmp ra rb => exact execAlu_bad h .cmp .cmp s
  | ldi ra imm | prn ra | push ra | pop ra | call ra | jmp ra | jeq ra | jne ra =>
    obtain rfl := List.mem_singleton.mp hm
    exact conclude_checkReg_bad hb s _

/-- All that an instruction can do: its effect, or fault entry for a bad register byte. -/
theorem exec_cases {i : Instr} {s t : State} (h : exec i s = .next t) :
    (i.WellFormed ∧ t = effect i s) ∨
    ∃ b, i.regFields.find? (fun b => decide (8 ≤ b.toNat)) = some b ∧
      t = takeFault (.invalidRegister b) s := by
  rcases wellFormed_or_bad i with hw | ⟨b, hb⟩
  · rw [exec_of_wellFormed hw] at h
    cases h
    exact .inl ⟨hw, rfl⟩
  · rw [exec_of_badRegister hb] at h
    cases h
    exact .inr ⟨b, hb, rfl⟩

/-! ### Registers (R22) -/

theorem ofInt_toNat_eq_emod (v : Int) : ((BitVec.ofInt 8 v).toNat : Int) = v % 256 := by
  rw [BitVec.toNat_ofInt]
  exact Int.toNat_of_nonneg (Int.emod_nonneg v (by decide))

/-- Settles O7, from what a register reads after a register write. -/
theorem registerWriteWrapsModulo256 : Obligations.RegisterWriteWrapsModulo256 := by
  intro i v s
  refine ⟨?_, fun j hj => ?_, ?_⟩
  · rw [reg_setReg, if_pos rfl, ofInt_toNat_eq_emod]
  · rw [reg_setReg, if_neg hj.symm]
  · rw [reg_setReg, if_pos rfl]
    rfl

/-! ### Construction (R38, R39) -/

/-- A deposit from `a` on puts the image's bytes at `a`, `a + 1`, … and no other cell changes (R192). -/
theorem read_deposit {a : Nat} {image : List Byte} (h : a + image.length ≤ memSize) {mem : Memory}
    (w : mem.wf = true) (c : Nat) :
    (deposit a image mem).read c = if c < a then mem.read c else image.getD (c - a) (mem.read c) := by
  induction image generalizing a mem with
  | nil => simp [deposit]
  | cons b rest ih =>
    simp only [List.length_cons] at h
    have hw : (mem.write a b).wf = true := Memory.wf_write (by omega) b w
    rw [deposit, ih (by omega) hw, Memory.read_write w]
    rcases Nat.lt_trichotomy c a with hc | rfl | hc
    · simp [hc, hc.ne, Nat.lt_succ_of_lt hc]
    · simp
    · obtain ⟨k, rfl⟩ := Nat.exists_eq_add_of_lt hc
      have hk : a + k + 1 - a = k + 1 := by omega
      have hk' : a + k + 1 - (a + 1) = k := by omega
      simp [hk, hk', hc.ne', hc.not_gt]

/-- What construct builds: the initial state with the image deposited at 0, when the image fits. -/
theorem construct_ok {c : Config} {image : List Byte} {s : State} (h : construct c image = .ok s) :
    c.Legal ∧ image.length ≤ memSize ∧ s = (initialState c.spInit).withMem (deposit 0 image []) := by
  unfold construct at h
  split at h
  · cases h
  · split at h
    · cases h
    · split at h
      · cases h
      · cases h
        exact ⟨⟨‹_›, not_not.mp ‹_›⟩, Nat.not_lt.mp ‹_›, rfl⟩

theorem initialState_reg {r : RegIdx} (h : r ≠ 7) (spInit : Byte) :
    (initialState spInit).x[r] = 0 := by
  have hx : (initialState spInit).x = (Vector.replicate 8 0).set 7 spInit := rfl
  have hr : 7 ≠ r.val := fun e => h (Fin.ext e.symm)
  simp only [hx, Fin.getElem_fin, Vector.getElem_set_ne _ _ hr, Vector.getElem_replicate]

/-- Settles O48, from what a deposit into the empty memory reads as. -/
theorem constructionClearsAndDeposits : Obligations.ConstructionClearsAndDeposits := by
  intro c image s h
  obtain ⟨-, hlen, rfl⟩ := construct_ok h
  have hfit : 0 + image.length ≤ memSize := by omega
  exact ⟨read_deposit hfit Memory.wf_nil, fun _ hr => initialState_reg hr c.spInit⟩

/-! ### Flags (R29) -/

theorem jumpEffect_flags (taken : Bool) (o : Op) (r : RegIdx) (s : State) :
    (jumpEffect taken o r s).flags = s.flags := by
  cases taken <;> rfl

theorem effect_flags {i : Instr} (h : ∀ ra rb, i ≠ .cmp ra rb) (s : State) :
    (effect i s).flags = s.flags := by
  cases i with
  | cmp ra rb => exact absurd rfl (h ra rb)
  | jmp ra | jeq ra | jne ra => exact jumpEffect_flags ..
  | _ => rfl

/-- With other flags, taken or not, a jump differs in the flags and pc at most. -/
theorem jumpEffect_setFlags (taken taken' : Bool) (o : Op) (r : RegIdx) (fl : Flags) (s : State) :
    jumpEffect taken o r (setFlags fl s) = { jumpEffect taken' o r s with
      flags := (jumpEffect taken o r (setFlags fl s)).flags,
      pc := (jumpEffect taken o r (setFlags fl s)).pc } := by
  cases taken <;> cases taken' <;> rfl

/-- With other flags, an instruction's effect differs in the flags and pc at most. -/
theorem effect_setFlags (i : Instr) (fl : Flags) (s : State) :
    effect i (setFlags fl s) = { effect i s with
      flags := (effect i (setFlags fl s)).flags, pc := (effect i (setFlags fl s)).pc } := by
  cases i with
  | jeq ra | jne ra => exact jumpEffect_setFlags ..
  | _ => rfl

/-- Only the conditional jumps let a flag show in pc. -/
theorem effect_setFlags_pc {i : Instr} (hjeq : ∀ ra, i ≠ .jeq ra) (hjne : ∀ ra, i ≠ .jne ra)
    (fl : Flags) (s : State) : (effect i (setFlags fl s)).pc = (effect i s).pc := by
  cases i with
  | jeq ra => exact absurd rfl (hjeq ra)
  | jne ra => exact absurd rfl (hjne ra)
  | _ => rfl

/-- The conditional jumps read E alone, so with the same E every instruction goes to the same pc. -/
theorem effect_setFlags_pc_of_same_e (i : Instr) {fl : Flags} {s : State} (he : fl.e = s.flags.e) :
    (effect i (setFlags fl s)).pc = (effect i s).pc := by
  cases i with
  | jeq ra | jne ra =>
    simp only [effect, setFlags_flags, he]
    cases s.flags.e <;> rfl
  | _ => rfl

/-- No instruction computes E from G or L. -/
theorem effect_setFlags_e (i : Instr) {fl : Flags} {s : State} (he : fl.e = s.flags.e) :
    (effect i (setFlags fl s)).flags.e = (effect i s).flags.e := by
  by_cases hcmp : ∃ ra rb, i = .cmp ra rb
  · obtain ⟨ra, rb, rfl⟩ := hcmp
    rfl
  · have hi : ∀ ra rb, i ≠ .cmp ra rb := fun ra rb e => hcmp ⟨ra, rb, e⟩
    rw [effect_flags hi, effect_flags hi]
    exact he

/-- The run of an instruction from a state with other flags, against its run from `s`. -/
theorem exec_setFlags {i : Instr} {s t : State} (h : exec i s = .next t) (fl : Flags) :
    ∃ t', exec i (setFlags fl s) = .next t' ∧ t' = { t with flags := t'.flags, pc := t'.pc } ∧
      (fl.e = s.flags.e → t'.pc = t.pc ∧ t'.flags.e = t.flags.e) ∧
      ((∀ ra, i ≠ .jeq ra) → (∀ ra, i ≠ .jne ra) → t'.pc = t.pc) := by
  rcases exec_cases h with ⟨hw, rfl⟩ | ⟨b, hb, rfl⟩
  · exact ⟨_, exec_of_wellFormed hw _, effect_setFlags i fl s,
      fun he => ⟨effect_setFlags_pc_of_same_e i he, effect_setFlags_e i he⟩,
      fun hjeq hjne => effect_setFlags_pc hjeq hjne fl s⟩
  · exact ⟨_, exec_of_badRegister hb _, rfl, fun he => ⟨rfl, he⟩, fun _ _ => rfl⟩

theorem exec_flags {i : Instr} {s t : State} (hi : ∀ ra rb, i ≠ .cmp ra rb)
    (h : exec i s = .next t) : t.flags = s.flags := by
  rcases exec_cases h with ⟨-, rfl⟩ | ⟨b, -, rfl⟩
  · exact effect_flags hi s
  · exact takeFault_flags _ s

/-- Settles O34, by comparing the runs of an instruction from two states that differ in the flags. -/
theorem flagsAreWrittenByCompareAndOnlyEqualIsRead :
    Obligations.FlagsAreWrittenByCompareAndOnlyEqualIsRead := by
  refine ⟨fun i s t hi h => exec_flags hi h, fun i s t g l h => ?_, fun i s t fl h => ?_⟩
  · obtain ⟨t', h', heq, hsame, -⟩ := exec_setFlags h { s.flags with g := g, l := l }
    obtain ⟨hpc, he⟩ := hsame rfl
    refine ⟨t', h', ?_, ?_, hpc, ?_, ?_, ?_, he⟩ <;> rw [heq]
  · obtain ⟨t', h', heq, -, hpc⟩ := exec_setFlags h fl
    refine ⟨t', h', ?_, ?_, ?_, ?_, ?_, hpc⟩ <;> rw [heq]

/-! ### Output (R35) -/

theorem jumpEffect_out (taken : Bool) (o : Op) (r : RegIdx) (s : State) :
    (jumpEffect taken o r s).out = s.out := by
  cases taken <;> rfl

theorem effect_out {i : Instr} (h : ∀ ra, i ≠ .prn ra) (s : State) : (effect i s).out = s.out := by
  cases i with
  | prn ra => exact absurd rfl (h ra)
  | jmp ra | jeq ra | jne ra => exact jumpEffect_out ..
  | _ => rfl

theorem exec_out {i : Instr} {s t : State} (hi : ∀ ra, i ≠ .prn ra) (h : exec i s = .next t) :
    t.out = s.out := by
  rcases exec_cases h with ⟨-, rfl⟩ | ⟨b, -, rfl⟩
  · exact effect_out hi s
  · exact takeFault_out _ s

/-- The state with more output before its own. -/
def prependOut (pre : List Byte) (s : State) : State := { s with out := pre ++ s.out }

theorem jumpEffect_prependOut (taken : Bool) (o : Op) (r : RegIdx) (pre : List Byte) (s : State) :
    jumpEffect taken o r (prependOut pre s) = prependOut pre (jumpEffect taken o r s) := by
  cases taken <;> rfl

/-- No instruction reads the output. -/
theorem effect_prependOut (i : Instr) (pre : List Byte) (s : State) :
    effect i (prependOut pre s) = prependOut pre (effect i s) := by
  cases i with
  | prn ra => simp only [effect, advance, emit, prependOut, reg, List.append_assoc]
  | jmp ra | jeq ra | jne ra => exact jumpEffect_prependOut ..
  | _ => rfl

theorem exec_prependOut {i : Instr} {s t : State} (pre : List Byte) (h : exec i s = .next t) :
    exec i (prependOut pre s) = .next (prependOut pre t) := by
  rcases exec_cases h with ⟨hw, rfl⟩ | ⟨b, hb, rfl⟩
  · rw [exec_of_wellFormed hw, effect_prependOut]
  · exact exec_of_badRegister hb _

/-- All that a step can do: nothing when stopped, else fault entry or the fetched instruction. -/
theorem stepWith_cases {m : OpcodeMap} {s t : State} (h : stepWith m s = .next t) :
    (s.run ≠ .running ∧ t = s) ∨
    (s.run = .running ∧ ∃ f, fetchInstr m s = .error f ∧ t = takeFault f s) ∨
    (s.run = .running ∧ ∃ i, fetchInstr m s = .ok i ∧ exec i s = .next t) := by
  unfold stepWith at h
  split at h
  next hrun =>
    split at h
    next i hf => exact .inr (.inr ⟨hrun, i, hf, h⟩)
    next f hf =>
      cases h
      exact .inr (.inl ⟨hrun, f, hf, rfl⟩)
  all_goals
    next hrun =>
      cases h
      exact .inl ⟨by simp [hrun], rfl⟩

/-- Settles O35, from the output of each effect and from running with more output before. -/
theorem onlyPrintAppendsToOutput : Obligations.OnlyPrintAppendsToOutput := by
  refine ⟨fun i s t hi h => exec_out hi h, fun s ra hra => ?_,
    fun i s t pre h => exec_prependOut pre h, fun m s t h hout => ?_⟩
  · have hw : (Instr.prn ra).WellFormed := List.forall_mem_singleton.mpr hra
    refine ⟨_, exec_of_wellFormed hw s, ?_⟩
    simp [effect, reg, regOf_eq hra]
  · rcases stepWith_cases h with ⟨-, rfl⟩ | ⟨-, f, -, rfl⟩ | ⟨-, i, hf, hx⟩
    · exact absurd rfl hout
    · exact absurd (takeFault_out f s) hout
    · by_contra hprn
      exact hout (exec_out (fun ra e => hprn ⟨ra, e ▸ hf⟩) hx)

end Sys2Proof.Machine
end

section
/-! Proofs about memory: what a bounded read and a bounded write do (20_memory.md R51, R52). -/

namespace Sys2Proof.Machine

/-- A write changes the byte at its own address and no other. -/
theorem byteAt_withMem_write {s : State} (w : s.mem.wf = true) (a : Nat) (v : Byte) (b : Nat) :
    (s.withMem (s.mem.write a v)).byteAt b = if b = a then v else s.byteAt b :=
  Memory.read_write w b

/-- Settles O9, from what every address reads as after a write and from the range of MemWrite. -/
theorem memoryWriteSetsOneCell : Obligations.MemoryWriteSetsOneCell := by
  intro a v s w
  refine ⟨fun ha => ⟨s.withMem (s.mem.write a v), memWrite_ok_iff.mpr ⟨ha, rfl⟩, ?cell, ?others,
    rfl, rfl, rfl, rfl, rfl, rfl⟩, fun ha => memWrite_error_iff.mpr ⟨ha, rfl⟩⟩
  case cell => rw [byteAt_withMem_write w, if_pos rfl]
  case others =>
    intro b hb
    rw [byteAt_withMem_write w, if_neg hb]

/-- Settles O8, from the range of MemRead. -/
theorem memoryReadIsBounded : Obligations.MemoryReadIsBounded := fun _ _ =>
  ⟨fun ha => memRead_ok_iff.mpr ⟨ha, rfl⟩, fun ha => memRead_error_iff.mpr ⟨ha, rfl⟩⟩

end Sys2Proof.Machine
end

section
/-! Proofs about the execution loop: decode and dispatch (40_execution_loop.md R92, R103). -/

namespace Sys2Proof.Machine

/-- The operand bytes go only into the fields of the operation that the opcode byte selected. -/
theorem decode_of_lookup_some {m : OpcodeMap} {opc : Byte} {e : DispatchEntry}
    (h : lookup m opc = some e) (op1 op2 : Byte) :
    decode m opc op1 op2 = .ok (assemble e.op op1 op2) := by
  simp only [decode, h]

theorem decode_of_lookup_none {m : OpcodeMap} {opc : Byte} (h : lookup m opc = none)
    (op1 op2 : Byte) : decode m opc op1 op2 = .error (.illegalOpcode opc) := by
  simp only [decode, h]

/-- A failed fetch or decode ends the step with fault entry. -/
theorem stepWith_of_fetchInstr_error {m : OpcodeMap} {s : State} {f : Fault}
    (hrun : s.run = .running) (hf : fetchInstr m s = .error f) :
    stepWith m s = .next (takeFault f s) := by
  simp only [stepWith, hrun, hf]

/-- Settles O4, by whether the opcode byte selects an entry. -/
theorem opcodeByteAloneSelectsTheHandler : Obligations.OpcodeByteAloneSelectsTheHandler := by
  intro m opc op1 op2 op1' op2'
  cases hl : lookup m opc with
  | none =>
    rw [decode_of_lookup_none hl, decode_of_lookup_none hl]
    exact ⟨fun _ hi => (nomatch hi), fun _ he => he⟩
  | some entry =>
    rw [decode_of_lookup_some hl, decode_of_lookup_some hl]
    refine ⟨fun i hi => ?_, fun _ he => nomatch he⟩
    cases hi
    exact ⟨_, rfl, by rw [assemble_op, assemble_op]⟩

/-- Settles O39: the fetch succeeds, decode misses, and fault entry leaves the rest as it was. -/
theorem unknownOpcodeRaisesIllegalInstruction :
    Obligations.UnknownOpcodeRaisesIllegalInstruction := by
  intro m s hrun hpc hl
  have hf : fetchInstr m s = .error .illegalInstruction := by
    simp only [fetchInstr_ok hpc, decode_of_lookup_none hl]
  exact ⟨faultRecord .illegalInstruction s, stepWith_of_fetchInstr_error hrun hf, rfl⟩

end Sys2Proof.Machine
end

section
/-! Proofs about the ALU: its values, its flags and its one condition (42_alu.md). -/

namespace Sys2Proof.Machine

/-! ### Values and flags (R121, R123, R124) -/

/-- Settles O13: the byte of a natural number is its remainder modulo 256. -/
theorem aluAddAndMulWrap : Obligations.AluAddAndMulWrap := fun _ _ =>
  ⟨⟨_, rfl, BitVec.toNat_ofNat _ _⟩, ⟨_, rfl, BitVec.toNat_ofNat _ _⟩⟩

@[simp] theorem compareFlags_e {a b : Byte} : (compareFlags a b).e = true ↔ a.toNat = b.toNat :=
  decide_eq_true_iff

@[simp] theorem compareFlags_g {a b : Byte} : (compareFlags a b).g = true ↔ a.toNat > b.toNat :=
  decide_eq_true_iff

@[simp] theorem compareFlags_l {a b : Byte} : (compareFlags a b).l = true ↔ a.toNat < b.toNat :=
  decide_eq_true_iff

/-- Unsigned bytes are less, equal or greater, and only one of the three (R30, R124). -/
theorem compareFlags_exactlyOne (a b : Byte) : (compareFlags a b).exactlyOne = true := by
  rcases Nat.lt_trichotomy a.toNat b.toNat with h | h | h
  · simp [Flags.exactlyOne, compareFlags, h, h.ne, h.le]
  · simp [Flags.exactlyOne, compareFlags, h]
  · simp [Flags.exactlyOne, compareFlags, h, h.ne', h.le]

/-- Settles O15, from each flag of the comparison and their being exclusive. -/
theorem aluCompareSetsExactlyOneFlag : Obligations.AluCompareSetsExactlyOneFlag := fun a b =>
  ⟨compareFlags a b, rfl, compareFlags_e, compareFlags_g, compareFlags_l,
    compareFlags_exactlyOne a b⟩

/-! ### InvalidOperation (R125, R173) -/

/-- The ALU raises one condition, and for the unknown identifiers only (R125). -/
theorem alu_error_iff {id : AluId} {a b : Byte} {f : Fault} :
    alu id a b = .error f ↔ f = .invalidOperation ∧ ∃ code, id = .other code := by
  constructor
  · intro h
    cases id with
    | other code =>
      cases h
      exact ⟨rfl, code, rfl⟩
    | add | sub | mul | cmp => cases h
  · rintro ⟨rfl, code, rfl⟩
    rfl

theorem jumpEffect_fault (taken : Bool) (o : Op) (r : RegIdx) (s : State) :
    (jumpEffect taken o r s).fault = s.fault := by
  cases taken <;> rfl

/-- The effect of an instruction leaves the fault record alone; only fault entry writes it (R176). -/
theorem effect_fault (i : Instr) (s : State) : (effect i s).fault = s.fault := by
  cases i with
  | jmp ra | jeq ra | jne ra => exact jumpEffect_fault ..
  | _ => rfl

theorem fetchInstr_ne_invalidOperation {m : OpcodeMap} {s : State} :
    fetchInstr m s ≠ .error .invalidOperation := by
  rcases fetchInstr_cases m s with ⟨-, hf⟩ | ⟨-, -, hf⟩ | ⟨-, o, -, hf⟩
  all_goals
    rw [hf]
    exact nofun

/-- A fault record with this kind comes from a fault entry for this condition (R170). -/
theorem Fault.kind_eq_invalidOperation {f : Fault} (h : f.kind = .invalidOperation) :
    f = .invalidOperation := by
  cases f with
  | invalidOperation => rfl
  | outOfBounds _ | illegalInstruction | invalidRegister _ => cases h

/-- All that a step can do to the fault record: nothing, or the entry of a condition that is not
InvalidOperation (R173, R176). -/
theorem stepWith_fault {m : OpcodeMap} {s t : State} (h : stepWith m s = .next t) :
    t.fault = s.fault ∨ ∃ f, f ≠ .invalidOperation ∧ t.fault = some (faultRecord f s) := by
  rcases stepWith_cases h with ⟨-, rfl⟩ | ⟨-, f, hf, rfl⟩ | ⟨-, i, -, hx⟩
  · exact .inl rfl
  · exact .inr ⟨f, fun hinv => fetchInstr_ne_invalidOperation (hinv ▸ hf), takeFault_fault f s⟩
  · rcases exec_cases hx with ⟨-, rfl⟩ | ⟨b, -, rfl⟩
    · exact .inl (effect_fault i s)
    · exact .inr ⟨.invalidRegister b, nofun, takeFault_fault _ s⟩

/-- Settles O16, from the ALU's only error and from what a step can do to the fault record. -/
theorem unknownAluIdentifierIsInvalidAndUnreachable :
    Obligations.UnknownAluIdentifierIsInvalidAndUnreachable := by
  refine ⟨fun code _ _ => alu_error_iff.mpr ⟨rfl, code, rfl⟩, fun _ _ _ h => (alu_error_iff.mp h).2,
    fun m s t r h hr hkind => ?_⟩
  rcases stepWith_fault h with hsame | ⟨f, hne, hnew⟩
  · exact hsame ▸ hr
  · obtain rfl : faultRecord f s = r := Option.some.inj (hnew.symm.trans hr)
    exact absurd (Fault.kind_eq_invalidOperation hkind) hne

end Sys2Proof.Machine
end

section
/-! Proofs about hazards: where a fetch runs out of memory (70_reset_and_hazards.md R195). -/

namespace Sys2Proof.Machine

/-- At pc 254 and above a Running machine takes OutOfBounds, whatever the bytes are (R171, R195). -/
theorem stepWith_of_pc_ge {m : OpcodeMap} {s : State} (hrun : s.run = .running) (hpc : 254 ≤ s.pc) :
    stepWith m s = .next (takeFault (.outOfBounds (max s.pc 256)) s) :=
  stepWith_of_fetchInstr_error hrun (fetchInstr_error hpc)

/-- Only LDI and the ALU operations are 3 bytes wide, and these advance and keep the run state (R75). -/
theorem effect_of_width_three {i : Instr} (h : i.op.width = 3) (s : State) :
    (effect i s).pc = s.pc + 3 ∧ (effect i s).run = s.run := by
  cases i with
  | ldi _ _ | mul _ _ | add _ _ | cmp _ _ => exact ⟨rfl, rfl⟩
  | hlt | ret | prn _ | push _ | pop _ | call _ | jmp _ | jeq _ | jne _ => cases h

/-- Settles O40, from the range of the fetch and from where a 3-byte instruction at 253 ends. -/
theorem fetchSucceedsExactlyUpTo253 : Obligations.FetchSucceedsExactlyUpTo253 := by
  intro m s hrun
  refine ⟨fetch_ok, fun hpc => ⟨_, stepWith_of_pc_ge hrun hpc, rfl⟩, fun i hpc hw hwidth => ?_⟩
  obtain ⟨hpc', hrun'⟩ := effect_of_width_three hwidth s
  rw [hpc] at hpc'
  exact ⟨effect i s, _, exec_of_wellFormed hw s, hpc',
    stepWith_of_pc_ge (hrun'.trans hrun) (by omega), rfl⟩

end Sys2Proof.Machine
end

section
/-! Proofs about decode and encode: each inverts the other (30_encoding.md R71, R74-R78, R92). -/

namespace Sys2Proof

/-- Under a map with distinct bytes, an operation's byte selects that operation's entry (R102). -/
theorem lookup_opcode {m : OpcodeMap} (hm : m.Distinct) (o : Op) :
    ∃ e, lookup m (m o) = some e ∧ e.op = o := by
  cases hl : lookup m (m o) with
  | none => exact absurd rfl (lookup_none_iff.mp hl o)
  | some e =>
    obtain ⟨-, hop, -⟩ := lookup_some hl
    exact ⟨e, rfl, hm.injective hop⟩

theorem decode_opcode {m : OpcodeMap} (hm : m.Distinct) (o : Op) (op1 op2 : Byte) :
    decode m (m o) op1 op2 = .ok (assemble o op1 op2) := by
  obtain ⟨e, hl, rfl⟩ := lookup_opcode hm o
  exact Machine.decode_of_lookup_some hl op1 op2

/-- Bytes that decode form the instruction of an operation that has the opcode byte. -/
theorem decode_ok {m : OpcodeMap} {opc op1 op2 : Byte} {i : Instr}
    (h : decode m opc op1 op2 = .ok i) : ∃ o, m o = opc ∧ i = assemble o op1 op2 := by
  cases hl : lookup m opc with
  | none =>
    rw [Machine.decode_of_lookup_none hl] at h
    cases h
  | some e =>
    rw [Machine.decode_of_lookup_some hl] at h
    cases h
    obtain ⟨-, hop, -⟩ := lookup_some hl
    exact ⟨e.op, hop, rfl⟩

theorem decodeBytes_of_decode {m : OpcodeMap} {opc op1 op2 : Byte} {i : Instr}
    (h : decode m opc op1 op2 = .ok i) (rest : List Byte) :
    decodeBytes m (opc :: op1 :: op2 :: rest) =
      .ok (i, (opc :: op1 :: op2 :: rest).drop i.op.width) := by
  simp only [decodeBytes, h]

/-- Settles O1: the opcode byte selects the instruction's own operation, whose format takes exactly
the operand bytes of the encoding out of the two that follow. -/
theorem decodeOfEncodeIsIdentity : Obligations.DecodeOfEncodeIsIdentity := by
  intro m hm i a b rest
  cases i with
  | hlt | ret => exact decodeBytes_of_decode (decode_opcode hm _ a b) _
  | prn ra | push ra | pop ra | call ra | jmp ra | jeq ra | jne ra =>
    exact decodeBytes_of_decode (decode_opcode hm _ ra a) _
  | ldi ra op2 | mul ra op2 | add ra op2 | cmp ra op2 =>
    exact decodeBytes_of_decode (decode_opcode hm _ ra op2) _

/-- What an operation forms with two bytes encodes to the operation's byte and as many of the two as
its format takes. -/
theorem encode_assemble (m : OpcodeMap) (o : Op) (op1 op2 : Byte) :
    encode m (assemble o op1 op2) = [m o, op1, op2].take o.width := by
  cases o <;> rfl

/-- Settles O2: the encoding is the first `width` of the three bytes. -/
theorem decodedBytesAreTheEncoding : Obligations.DecodedBytesAreTheEncoding := by
  intro m opc op1 op2 i h
  obtain ⟨o, rfl, rfl⟩ := decode_ok h
  refine ⟨[m o, op1, op2].drop o.width, ?_, ?_⟩
  · rw [encode_assemble, List.take_append_drop]
  · rw [assemble_op, List.length_drop]
    rfl

theorem lookup_isSome_iff {m : OpcodeMap} {opc : Byte} :
    (lookup m opc).isSome = true ↔ ∃ o, m o = opc := by
  rw [← not_iff_not, Option.not_isSome_iff_eq_none, lookup_none_iff, not_exists]

/-- The assigned byte values are those of the 13 operations, each once. -/
theorem assigned_perm_map_all {m : OpcodeMap} (hm : m.Distinct) :
    ((List.range 256).filter fun n => (lookup m (BitVec.ofNat 8 n)).isSome).Perm
      ((Op.all.map m).map BitVec.toNat) := by
  have hnodup : ((Op.all.map m).map BitVec.toNat).Nodup :=
    hm.map fun _ _ => BitVec.eq_of_toNat_eq
  refine (List.perm_ext_iff_of_nodup (List.nodup_range.filter _) hnodup).mpr fun n => ?_
  simp only [List.mem_filter, List.mem_range, lookup_isSome_iff, List.map_map, List.mem_map,
    Function.comp_apply]
  constructor
  · rintro ⟨hn, o, ho⟩
    exact ⟨o, Op.mem_all o, by rw [ho, BitVec.toNat_ofNat, Nat.mod_eq_of_lt hn]⟩
  · rintro ⟨o, -, rfl⟩
    exact ⟨(m o).isLt, o, (BitVec.ofNat_toNat 8 (m o)).symm⟩

/-- A map with distinct bytes leaves all but 13 of the 256 byte values unassigned (R76). -/
theorem unassigned_length {m : OpcodeMap} (hm : m.Distinct) :
    ((List.range 256).filter fun n => (lookup m (BitVec.ofNat 8 n)).isNone).length = 243 := by
  have hassigned := (assigned_perm_map_all hm).length_eq
  have hsplit := List.length_eq_length_filter_add (l := List.range 256)
    fun n => (lookup m (BitVec.ofNat 8 n)).isSome
  simp only [Option.not_isSome] at hsplit
  rw [List.length_range, hassigned] at hsplit
  exact (Nat.add_left_cancel (n := 13) hsplit).symm

/-- Settles O5, by whether some operation has the byte, and by counting the bytes that one has. -/
theorem unassignedOpcodesAreIllegal : Obligations.UnassignedOpcodesAreIllegal := by
  refine ⟨fun m opc op1 op2 => ⟨fun h => ?_, fun o ho => ?_⟩, unassigned_length (by decide),
    rfl, rfl⟩
  · exact Machine.decode_of_lookup_none (lookup_none_iff.mpr h) op1 op2
  · obtain ⟨e, hl⟩ := Option.isSome_iff_exists.mp (lookup_isSome_iff.mpr ⟨o, ho⟩)
    obtain ⟨-, hop, -⟩ := lookup_some hl
    exact ⟨_, Machine.decode_of_lookup_some hl op1 op2, by rw [assemble_op, hop]⟩

theorem assemble_of_width_le_two {o : Op} (h : o.width ≤ 2) (op1 op2 op2' : Byte) :
    assemble o op1 op2' = assemble o op1 op2 := by
  cases o with
  | ldi | mul | add | cmp => exact absurd h (by decide)
  | _ => rfl

theorem assemble_of_width_one {o : Op} (h : o.width = 1) (op1 op2 op1' op2' : Byte) :
    assemble o op1' op2' = assemble o op1 op2 := by
  cases o with
  | hlt | ret => rfl
  | _ => cases h

/-- Settles O6: the same opcode byte selects the same operation, whose format drops the byte. -/
theorem unusedOperandBytesAreIgnored : Obligations.UnusedOperandBytesAreIgnored := by
  intro m opc op1 op2 op1' op2' i h
  cases hl : lookup m opc with
  | none =>
    rw [Machine.decode_of_lookup_none hl] at h
    cases h
  | some e =>
    rw [Machine.decode_of_lookup_some hl] at h
    cases h
    rw [assemble_op, Machine.decode_of_lookup_some hl, Machine.decode_of_lookup_some hl]
    exact ⟨fun hw => by rw [assemble_of_width_le_two hw],
      fun hw => by rw [assemble_of_width_one hw]⟩

/-- Settles O3, by computing the seven words. -/
theorem sampleWordsDecode : Obligations.SampleWordsDecode := by
  unfold Obligations.SampleWordsDecode
  decide

/-- Settles O57: the encoding of each constructor, written out. -/
theorem instructionBytesInOrder : Obligations.InstructionBytesInOrder := fun _ _ _ _ =>
  ⟨rfl, rfl, rfl, rfl, rfl, rfl, rfl, rfl, rfl, rfl, rfl, rfl, rfl⟩

end Sys2Proof
end

section
/-! Proofs about memory's representation: the canonical form is determined by the cells (log 25). -/

namespace Sys2Proof.Machine

theorem Memory.read_cons_self (a : Nat) (v : Byte) (rest : Memory) :
    Memory.read ((a, v) :: rest) a = v :=
  if_pos rfl

theorem Memory.read_cons_of_ne {a c : Nat} (h : c ≠ a) (v : Byte) (rest : Memory) :
    Memory.read ((a, v) :: rest) c = rest.read c :=
  if_neg h

/-- A canonical memory with the same cells begins no later than this one. -/
theorem Memory.le_head_of_read_eq {lo lo' a b : Nat} {v u : Byte} {p q : Memory}
    (wp : Memory.wfFrom lo ((a, v) :: p) = true) (wq : Memory.wfFrom lo' ((b, u) :: q) = true)
    (h : ∀ c, Memory.read ((a, v) :: p) c = Memory.read ((b, u) :: q) c) : b ≤ a := by
  obtain ⟨-, -, hv, -⟩ := Memory.wfFrom_cons.mp wp
  obtain ⟨-, hbound, hu, wq'⟩ := Memory.wfFrom_cons.mp wq
  by_contra hlt
  have wb : Memory.wfFrom b ((b, u) :: q) = true :=
    Memory.wfFrom_cons.mpr ⟨Nat.le_refl b, hbound, hu, wq'⟩
  apply hv
  calc v = Memory.read ((a, v) :: p) a := (Memory.read_cons_self a v p).symm
    _ = Memory.read ((b, u) :: q) a := h a
    _ = unlistedByte := Memory.read_below (Nat.not_le.mp hlt) wb

theorem Memory.exists_read_ne_unlisted {lo : Nat} {c : Host.Cell} {rest : Memory}
    (w : Memory.wfFrom lo (c :: rest) = true) : ∃ a, Memory.read (c :: rest) a ≠ unlistedByte := by
  obtain ⟨a, v⟩ := c
  obtain ⟨-, -, hv, -⟩ := Memory.wfFrom_cons.mp w
  exact ⟨a, by rwa [Memory.read_cons_self]⟩

/-- Canonical memories that read the same at every address are the same list. -/
theorem Memory.eq_of_read_eq {lo lo' : Nat} {p q : Memory} (wp : Memory.wfFrom lo p = true)
    (wq : Memory.wfFrom lo' q = true) (h : ∀ c, p.read c = q.read c) : p = q := by
  induction p generalizing lo lo' q with
  | nil =>
    cases q with
    | nil => rfl
    | cons d q =>
      obtain ⟨a, ha⟩ := Memory.exists_read_ne_unlisted wq
      exact absurd (h a).symm ha
  | cons d p ih =>
    cases q with
    | nil =>
      obtain ⟨a, ha⟩ := Memory.exists_read_ne_unlisted wp
      exact absurd (h a) ha
    | cons e q =>
      obtain ⟨a, v⟩ := d
      obtain ⟨b, u⟩ := e
      obtain rfl : a = b := Nat.le_antisymm (Memory.le_head_of_read_eq wq wp fun c => (h c).symm)
        (Memory.le_head_of_read_eq wp wq h)
      obtain rfl : v = u := by simpa only [Memory.read_cons_self] using h a
      obtain ⟨-, -, -, wp'⟩ := Memory.wfFrom_cons.mp wp
      obtain ⟨-, -, -, wq'⟩ := Memory.wfFrom_cons.mp wq
      have hrest : ∀ c, Memory.read p c = Memory.read q c := by
        intro c
        by_cases hc : c = a
        · rw [Memory.read_below (by omega) wp', Memory.read_below (by omega) wq']
        · simpa only [Memory.read_cons_of_ne hc] using h c
      rw [ih wp' wq' hrest]

/-- Settles O10: outside the 256 cells both read as unlisted, so they read the same everywhere. -/
theorem canonicalMemoriesWithEqualCellsAreEqual :
    Obligations.CanonicalMemoriesWithEqualCellsAreEqual := by
  intro p q wp wq h
  refine Memory.eq_of_read_eq wp wq fun c => ?_
  rcases Nat.lt_or_ge c 256 with hc | hc
  · exact h c hc
  · rw [Memory.read_outside hc wp, Memory.read_outside hc wq]

end Sys2Proof.Machine
end

section
/-! Proofs about what each instruction does, its whole next state (41_data_and_halt.md, 42_alu.md,
43_stack_call_return.md, 44_jumps.md). -/

namespace Sys2Proof.Machine

theorem wellFormed_of_regFields_eq_singleton {i : Instr} {ra : Byte} (hi : i.regFields = [ra])
    (h : ra.toNat < 8) : i.WellFormed := by
  rw [Instr.WellFormed, hi]
  exact List.forall_mem_singleton.mpr h

theorem wellFormed_of_regFields_eq_pair {i : Instr} {ra rb : Byte} (hi : i.regFields = [ra, rb])
    (ha : ra.toNat < 8) (hb : rb.toNat < 8) : i.WellFormed := by
  rw [Instr.WellFormed, hi]
  exact List.forall_mem_cons.mpr ⟨ha, List.forall_mem_singleton.mpr hb⟩

theorem exec_of_regFields_singleton {i : Instr} {ra : Byte} (hi : i.regFields = [ra])
    (h : ra.toNat < 8) (s : State) : exec i s = .next (effect i s) :=
  exec_of_wellFormed (wellFormed_of_regFields_eq_singleton hi h) s

theorem exec_of_regFields_pair {i : Instr} {ra rb : Byte} (hi : i.regFields = [ra, rb])
    (ha : ra.toNat < 8) (hb : rb.toNat < 8) (s : State) : exec i s = .next (effect i s) :=
  exec_of_wellFormed (wellFormed_of_regFields_eq_pair hi ha hb) s

/-- A write of a byte to a register stores that byte (R22). -/
theorem setReg_toNat (r : RegIdx) (v : Byte) (s : State) :
    setReg r v.toNat s = { s with x := s.x.set r v } := by
  rw [setReg, ofInt_toNat]

theorem reg_regOf {b : Byte} (h : b.toNat < 8) (s : State) : reg (regOf b) s = s.x[b.toNat] := by
  rw [regOf_eq h]
  rfl

theorem setReg_regOf {b : Byte} (h : b.toNat < 8) (v : Byte) (s : State) :
    setReg (regOf b) v.toNat s = { s with x := s.x.set b.toNat v } := by
  rw [setReg_toNat, regOf_eq h]

/-- The address the stack instructions use after the decrement. -/
@[simp] theorem reg_decSp (s : State) : reg spIdx (decSp s) = s.x[7] - 1 := by
  rw [decSp, reg_setReg, if_pos rfl, ofInt_pred]
  rfl

/-! ### Data movement and Halt -/

/-- Settles O18, from the register write. -/
theorem loadImmediateEffect : Obligations.LoadImmediateEffect := by
  intro s ra imm h
  rw [exec_of_regFields_singleton rfl h, effect, immediate, setReg_regOf h]
  rfl

/-- Settles O19, from the register read. -/
theorem printRegisterEffect : Obligations.PrintRegisterEffect := by
  intro s ra h
  rw [exec_of_regFields_singleton rfl h, effect, reg_regOf h]
  rfl

/-- Settles O20: the handler of Halt has no check and no other write. -/
theorem haltEffect : Obligations.HaltEffect := fun _ => rfl

/-! ### ALU -/

/-- Settles O21: the ALU's byte is the exact result modulo 256. -/
theorem multiplyAndAddEffect : Obligations.MultiplyAndAddEffect := by
  intro s ra rb ha hb
  constructor
  all_goals
    rw [exec_of_regFields_pair rfl ha hb, effect, reg_regOf ha, reg_regOf hb, setReg_regOf ha,
      ofNat_mod_256]
    rfl

/-- Settles O22: the flags of the comparison of the two registers. -/
theorem compareEffect : Obligations.CompareEffect := by
  intro s ra rb ha hb
  rw [exec_of_regFields_pair rfl ha hb, effect, reg_regOf ha, reg_regOf hb]
  rfl

/-! ### Stack -/

/-- Settles O23: the decrement, then the store at the new SP. -/
theorem pushEffect : Obligations.PushEffect := by
  intro s ra h
  rw [exec_of_regFields_singleton rfl h, effect, storeAtSp, reg_decSp, reg_regOf h, decSp_eq]
  rfl

/-- Settles O24: the load, then the increment. -/
theorem popEffect : Obligations.PopEffect := by
  intro s ra h
  rw [exec_of_regFields_singleton rfl h, effect, setReg_regOf h, incSp_eq]
  rfl

/-- Where pc + 2 is a byte, it is the return address (R143). -/
theorem returnAddress_eq {s : State} {ret : Byte} (h : ret.toNat = s.pc + 2) :
    returnAddress s = ret := by
  rw [returnAddress]
  exact (congrArg (BitVec.ofNat 8) h.symm).trans (BitVec.ofNat_toNat 8 ret)

/-- Settles O25: the decrement, the store of the return address at the new SP, then the jump. -/
theorem callEffect : Obligations.CallEffect := by
  intro s ra ret h hret
  rw [exec_of_regFields_singleton rfl h, effect, storeAtSp, reg_decSp, reg_regOf h,
    returnAddress_eq hret, decSp_eq]
  rfl

/-- Settles O26: the load into the PC, then the increment. -/
theorem returnEffect : Obligations.ReturnEffect := by
  intro s
  rw [exec_of_wellFormed (i := .ret) nofun, effect, incSp_eq]
  rfl

/-! ### Jumps -/

/-- A jump writes the PC alone: the register when it is taken, else the address after it. -/
theorem jumpEffect_eq (taken : Bool) (o : Op) (r : RegIdx) (s : State) :
    jumpEffect taken o r s =
      { s with pc := if taken = true then (reg r s).toNat else s.pc + o.width } := by
  cases taken <;> rfl

theorem exec_jmp {ra : Byte} (h : ra.toNat < 8) (s : State) :
    exec (.jmp ra) s = .next { s with pc := (s.x[ra.toNat]'h).toNat } := by
  rw [exec_of_regFields_singleton rfl h, effect, jumpEffect_eq, reg_regOf h]
  rfl

/-- Settles O28, from the jumps taken on E and on its negation. -/
theorem conditionalJumpEffect : Obligations.ConditionalJumpEffect := by
  intro s ra h
  constructor
  · rw [exec_of_regFields_singleton rfl h, effect, jumpEffect_eq, reg_regOf h]
    rfl
  · rw [exec_of_regFields_singleton rfl h, effect, jumpEffect_eq, reg_regOf h]
    simp only [Bool.not_eq_true']
    rfl

end Sys2Proof.Machine

/-- Settles O27, from the jump that is always taken (outside the namespace, where this name is a
function). -/
theorem Sys2Proof.jumpEffect : Obligations.JumpEffect := fun s _ h => Machine.exec_jmp h s
end

section
/-! Proofs about what an instruction can change: run state, PC, registers, memory
(40_execution_loop.md R93-R95, 20_memory.md R53, R54). -/

namespace Sys2Proof.Machine

/-! ### Faults and completion -/

/-- Settles O29, from the operand check before any effect; the record is written out. -/
theorem invalidRegisterByteFaults : Obligations.InvalidRegisterByteFaults :=
  fun _ s _ h => exec_of_badRegister h s

theorem jumpEffect_run (taken : Bool) (o : Op) (r : RegIdx) (s : State) :
    (jumpEffect taken o r s).run = s.run := by
  cases taken <;> rfl

/-- No effect but Halt's writes the run state (R112). -/
theorem effect_run_of_ne_hlt {i : Instr} (h : i ≠ .hlt) (s : State) :
    (effect i s).run = s.run := by
  cases i with
  | hlt => exact absurd rfl h
  | jmp ra | jeq ra | jne ra => exact jumpEffect_run ..
  | _ => rfl

theorem effect_run (i : Instr) (s : State) :
    (effect i s).run = s.run ∨ (i = .hlt ∧ (effect i s).run = .halted) := by
  by_cases hi : i = .hlt
  · subst hi
    exact .inr ⟨rfl, halt_run s⟩
  · exact .inl (effect_run_of_ne_hlt hi s)

/-- Settles O30, from what each effect leaves of the record and the run state. -/
theorem wellFormedInstructionsComplete : Obligations.WellFormedInstructionsComplete := fun i s hw =>
  ⟨effect i s, exec_of_wellFormed hw s, effect_fault i s, effect_run i s⟩

/-- Settles O36, from all that an instruction can do. -/
theorem meaningsRaiseOnlyInvalidRegister : Obligations.MeaningsRaiseOnlyInvalidRegister := by
  intro i s t h
  rcases exec_cases h with ⟨hw, rfl⟩ | ⟨b, hb, rfl⟩
  · exact .inl ⟨hw, effect_fault i s, (effect_run i s).imp_right And.right⟩
  · exact .inr ⟨b, List.mem_of_find?_eq_some hb, by simpa using List.find?_some hb, rfl⟩

/-! ### PC -/

theorem regOf_val {b : Byte} (h : b.toNat < 8) : (regOf b).val = b.toNat := Nat.mod_eq_of_lt h

/-- Where a conditional jump goes, taken and untaken (R161, R162). -/
theorem jumpEffect_pc (taken : Bool) (o : Op) (r : RegIdx) (s : State) :
    (taken = true → (jumpEffect taken o r s).pc = (reg r s).toNat) ∧
      (taken = false → (jumpEffect taken o r s).pc = s.pc + o.width) := by
  constructor <;> (rintro rfl; rfl)

/-- Settles O31: the PC of each constructor's effect. -/
theorem pcUpdateFollowsTheOutcome : Obligations.PcUpdateFollowsTheOutcome := by
  intro i s hw
  refine ⟨effect i s, exec_of_wellFormed hw s, ?_⟩
  cases i with
  | ldi _ _ | mul _ _ | add _ _ | cmp _ _ | prn _ | push _ | pop _ | ret => rfl
  | hlt => exact ⟨rfl, rfl⟩
  | call ra | jmp ra => exact ⟨regOf ra, regOf_val (hw ra (.head _)), rfl⟩
  | jeq ra => exact ⟨regOf ra, regOf_val (hw ra (.head _)), jumpEffect_pc s.flags.e .jeq _ s⟩
  | jne ra =>
    obtain ⟨htaken, huntaken⟩ := jumpEffect_pc (!s.flags.e) .jne (regOf ra) s
    exact ⟨regOf ra, regOf_val (hw ra (.head _)), fun he => htaken (by rw [he]; rfl),
      fun he => huntaken (by rw [he]; rfl)⟩

/-! ### Registers -/

theorem jumpEffect_x (taken : Bool) (o : Op) (r : RegIdx) (s : State) :
    (jumpEffect taken o r s).x = s.x := by
  cases taken <;> rfl

/-- A register write changes no register but its own. -/
theorem eq_of_reg_setReg_ne {i r : RegIdx} {v : Int} {s : State}
    (h : reg r (setReg i v s) ≠ reg r s) : r = i := by
  by_contra hne
  exact h (by rw [reg_setReg, if_neg fun e => hne e.symm])

/-- A register write and then the increment of SP change no register but these two. -/
theorem eq_or_eq_of_reg_incSp_setReg_ne {i r : RegIdx} {v : Int} {s : State}
    (h : reg r (incSp (setReg i v s)) ≠ reg r s) : r = i ∨ r = spIdx := by
  by_cases hsp : reg r (incSp (setReg i v s)) = reg r (setReg i v s)
  · exact .inl (eq_of_reg_setReg_ne (hsp ▸ h))
  · exact .inr (eq_of_reg_setReg_ne hsp)

/-- Settles O32: each effect's register writes, by constructor. -/
theorem onlyNamedRegistersChange : Obligations.OnlyNamedRegistersChange := by
  intro i s t h r hr
  rcases exec_cases h with ⟨hw, rfl⟩ | ⟨b, -, rfl⟩
  · cases i with
    | prn _ | hlt | cmp _ _ => exact hr rfl
    | jmp _ | jeq _ | jne _ => exact hr (congrArg (·[r]) (jumpEffect_x ..))
    | push _ | call _ | ret => exact eq_of_reg_setReg_ne (i := spIdx) hr
    | ldi ra _ | mul ra _ | add ra _ =>
      have hra := regOf_val (hw ra (.head _))
      exact (congrArg Fin.val (eq_of_reg_setReg_ne hr)).trans hra
    | pop ra =>
      have hra := regOf_val (hw ra (.head _))
      exact (eq_or_eq_of_reg_incSp_setReg_ne hr).imp_left fun e => (congrArg Fin.val e).trans hra
  · exact absurd (congrArg (·[r]) (takeFault_x _ s)) hr

/-! ### Memory -/

theorem jumpEffect_mem (taken : Bool) (o : Op) (r : RegIdx) (s : State) :
    (jumpEffect taken o r s).mem = s.mem := by
  cases taken <;> rfl

theorem effect_mem {i : Instr} (hpush : ∀ ra, i ≠ .push ra) (hcall : ∀ ra, i ≠ .call ra)
    (s : State) : (effect i s).mem = s.mem := by
  cases i with
  | push ra => exact absurd rfl (hpush ra)
  | call ra => exact absurd rfl (hcall ra)
  | jmp ra | jeq ra | jne ra => exact jumpEffect_mem ..
  | _ => rfl

theorem exec_mem {i : Instr} {s t : State} (hpush : ∀ ra, i ≠ .push ra)
    (hcall : ∀ ra, i ≠ .call ra) (h : exec i s = .next t) : t.mem = s.mem := by
  rcases exec_cases h with ⟨-, rfl⟩ | ⟨b, -, rfl⟩
  · exact effect_mem hpush hcall s
  · exact takeFault_mem _ s

/-- PUSH stores at SP - 1 what x[ra] holds after the instruction (R141). -/
theorem effect_push_mem (ra : Byte) (s : State) :
    (effect (.push ra) s).mem =
      s.mem.write (s.x[7] - 1).toNat (reg (regOf ra) (effect (.push ra) s)) := by
  rw [← reg_decSp]
  rfl

/-- CALL stores the return address at SP - 1 (R143). -/
theorem effect_call_mem (ra : Byte) (s : State) :
    (effect (.call ra) s).mem = s.mem.write (s.x[7] - 1).toNat (returnAddress s) := by
  rw [← reg_decSp]
  rfl

theorem byteAt_effect_push {s : State} (w : s.mem.wf = true) (ra : Byte) (a : Nat) :
    (effect (.push ra) s).byteAt a = if a = (s.x[7] - 1).toNat
      then reg (regOf ra) (effect (.push ra) s) else s.byteAt a := by
  rw [State.byteAt, effect_push_mem]
  exact Memory.read_write w a

theorem byteAt_effect_call {s : State} (w : s.mem.wf = true) (ra : Byte) (a : Nat) :
    (effect (.call ra) s).byteAt a = if a = (s.x[7] - 1).toNat
      then returnAddress s else s.byteAt a := by
  rw [State.byteAt, effect_call_mem]
  exact Memory.read_write w a

/-- The return address of a fetched Call is a byte: no wrap (R64). -/
theorem returnAddress_toNat {s : State} (h : s.pc ≤ 253) : (returnAddress s).toNat = s.pc + 2 :=
  Nat.mod_eq_of_lt (show s.pc + 2 < 256 by omega)

theorem next_eq_effect {i : Instr} {s t : State} (hw : i.WellFormed) (h : exec i s = .next t) :
    t = effect i s := by
  rw [exec_of_wellFormed hw] at h
  cases h
  rfl

theorem wellFormed_push {ra : Byte} (h : ra.toNat < 8) : (Instr.push ra).WellFormed :=
  wellFormed_of_regFields_eq_singleton rfl h

theorem wellFormed_call {ra : Byte} (h : ra.toNat < 8) : (Instr.call ra).WellFormed :=
  wellFormed_of_regFields_eq_singleton rfl h

theorem byteAt_of_exec_push {ra : Byte} {s t : State} (hra : ra.toNat < 8) (w : s.mem.wf = true)
    (h : exec (.push ra) s = .next t) : t.byteAt (s.x[7] - 1).toNat = t.x[ra.toNat] := by
  obtain rfl := next_eq_effect (wellFormed_push hra) h
  rw [byteAt_effect_push w, if_pos rfl, reg_regOf hra]

theorem byteAt_of_exec_call {ra : Byte} {s t : State} (hra : ra.toNat < 8) (w : s.mem.wf = true)
    (hpc : s.pc ≤ 253) (h : exec (.call ra) s = .next t) :
    (t.byteAt (s.x[7] - 1).toNat).toNat = s.pc + 2 := by
  obtain rfl := next_eq_effect (wellFormed_call hra) h
  rw [byteAt_effect_call w, if_pos rfl, returnAddress_toNat hpc]

/-- Settles O33, from what each effect leaves at each address. -/
theorem onlyPushAndCallWriteMemory : Obligations.OnlyPushAndCallWriteMemory := by
  refine ⟨fun i s t hpush hcall h a => congrArg (Memory.read · a) (exec_mem hpush hcall h),
    fun ra s t w h a ha => ?_, fun ra s t hra w h => byteAt_of_exec_push hra w h,
    fun ra s t hra w hpc h => byteAt_of_exec_call hra w hpc h⟩
  rcases h with h | h
  · rcases exec_cases h with ⟨-, rfl⟩ | ⟨b, -, rfl⟩
    · rw [byteAt_effect_push w, if_neg ha]
    · rfl
  · rcases exec_cases h with ⟨-, rfl⟩ | ⟨b, -, rfl⟩
    · rw [byteAt_effect_call w, if_neg ha]
    · rfl

end Sys2Proof.Machine
end

section
/-! Proofs about the step (40_execution_loop.md R90-R99, 60_exceptions.md R176). -/

namespace Sys2Proof.Machine

/-- A Running machine runs the instruction that fetch and decode give. -/
theorem stepWith_of_fetchInstr_ok {m : OpcodeMap} {s : State} {i : Instr}
    (hrun : s.run = .running) (hf : fetchInstr m s = .ok i) : stepWith m s = exec i s := by
  simp only [stepWith, hrun, hf]

theorem stepWith_of_stopped (m : OpcodeMap) {s : State} (h : s.run ≠ .running) :
    stepWith m s = .next s := by
  cases hrun : s.run with
  | running => exact absurd hrun h
  | halted | faulted => simp only [stepWith, hrun]

/-- An instruction ends in its effect or in fault entry, and so in a next state. -/
theorem exec_next (i : Instr) (s : State) : ∃ t, exec i s = .next t := by
  rcases wellFormed_or_bad i with hw | ⟨b, hb⟩
  · exact ⟨_, exec_of_wellFormed hw s⟩
  · exact ⟨_, exec_of_badRegister hb s⟩

theorem stepWith_next (m : OpcodeMap) (s : State) : ∃ t, stepWith m s = .next t := by
  by_cases hrun : s.run = .running
  · cases hf : fetchInstr m s with
    | ok i => exact stepWith_of_fetchInstr_ok hrun hf ▸ exec_next i s
    | error f => exact ⟨_, stepWith_of_fetchInstr_error hrun hf⟩
  · exact ⟨s, stepWith_of_stopped m hrun⟩

/-- Settles O44, by the run state and by whether the fetch and decode succeed. -/
theorem everyStepAnswersANextState : Obligations.EveryStepAnswersANextState := stepWith_next

theorem stepped_of_next {m : OpcodeMap} {s t : State} (h : stepWith m s = .next t) :
    stepped m s = t := by
  simp only [stepped, h]

theorem stepped_of_stopped (m : OpcodeMap) {s : State} (h : s.run ≠ .running) : stepped m s = s :=
  stepped_of_next (stepWith_of_stopped m h)

/-- Settles O43, from the step of a stopped machine. -/
theorem stoppedMachinesDoNotChange : Obligations.StoppedMachinesDoNotChange := fun m _ h =>
  ⟨stepWith_of_stopped m h, stepped_of_stopped m h⟩

/-- Settles O38: the fetch succeeds, so the step runs what decode gives. -/
theorem stepRunsTheDecodedInstruction : Obligations.StepRunsTheDecodedInstruction := by
  intro s i hrun hpc
  have run_decoded : ∀ m, decode m (s.byteAt s.pc) (s.byteAt (s.pc + 1)) (s.byteAt (s.pc + 2)) =
      .ok i → stepWith m s = exec i s := fun m hd =>
    stepWith_of_fetchInstr_ok hrun (by simp only [fetchInstr_ok hpc, hd])
  exact ⟨run_decoded defaultOpcodeMap, run_decoded⟩

/-- An instruction leaves a Running machine Halted exactly when it is Halt (R112). -/
theorem exec_halted_iff {i : Instr} {s t : State} (hrun : s.run = .running)
    (h : exec i s = .next t) : t.run = .halted ↔ i = .hlt := by
  rcases exec_cases h with ⟨-, rfl⟩ | ⟨b, hb, rfl⟩
  · by_cases hi : i = .hlt
    · subst hi
      exact ⟨fun _ => rfl, fun _ => halt_run s⟩
    · rw [effect_run_of_ne_hlt hi, hrun]
      exact ⟨nofun, fun e => absurd e hi⟩
  · refine ⟨nofun, ?_⟩
    rintro rfl
    cases hb

/-- Settles O37: fault entry does not halt, and of the instructions only Halt does. -/
theorem onlyHaltEntersHalted : Obligations.OnlyHaltEntersHalted := by
  intro m s t hrun h
  rcases stepWith_cases h with ⟨hstop, -⟩ | ⟨-, f, hf, rfl⟩ | ⟨-, i, hf, hx⟩
  · exact absurd hrun hstop
  · rw [hf]
    exact ⟨nofun, nofun⟩
  · rw [exec_halted_iff hrun hx, hf, Except.ok.injEq]

theorem recordedOpcode_of_lt {s : State} (h : s.pc < 256) :
    recordedOpcode s = some (s.byteAt s.pc) :=
  if_pos h

theorem recordedOpcode_of_ge {s : State} (h : 256 ≤ s.pc) : recordedOpcode s = none :=
  if_neg (Nat.not_lt.mpr h)

/-- Settles O41: what fetch or decode raises, and the record that fault entry writes for it. -/
theorem fetchAndDecodeFaultRecords : Obligations.FetchAndDecodeFaultRecords := by
  intro m s hrun
  refine ⟨fun hpc => ?_, fun hpc => ?_, fun hpc hbyte => ?_⟩
  · have hmax : max s.pc 256 = 256 := by omega
    rw [stepWith_of_pc_ge hrun (by omega), hmax, takeFault, faultRecord,
      recordedOpcode_of_lt (by omega)]
    rfl
  · have hmax : max s.pc 256 = s.pc := by omega
    rw [stepWith_of_pc_ge hrun (by omega), hmax, takeFault, faultRecord, recordedOpcode_of_ge hpc]
    rfl
  · have hf : fetchInstr m s = .error .illegalInstruction := by
      simp only [fetchInstr_ok hpc, decode_of_lookup_none (lookup_none_iff.mpr hbyte)]
    rw [stepWith_of_fetchInstr_error hrun hf, takeFault, faultRecord,
      recordedOpcode_of_lt (by omega)]
    rfl

/-- A step of a Running machine that ends Faulted is fault entry from the old state (R97, R176). -/
theorem exists_takeFault_of_stepWith {m : OpcodeMap} {s t : State} (hrun : s.run = .running)
    (h : stepWith m s = .next t) (ht : t.run = .faulted) : ∃ f, t = takeFault f s := by
  rcases stepWith_cases h with ⟨hstop, -⟩ | ⟨-, f, -, rfl⟩ | ⟨-, i, -, hx⟩
  · exact absurd hrun hstop
  · exact ⟨f, rfl⟩
  · rcases exec_cases hx with ⟨-, rfl⟩ | ⟨b, -, rfl⟩
    · rcases effect_run i s with hsame | ⟨-, hhalt⟩
      · cases hrun.symm.trans (hsame.symm.trans ht)
      · cases hhalt.symm.trans ht
    · exact ⟨_, rfl⟩

/-- A condition records an address exactly if it is OutOfBounds (R170). -/
theorem Fault.addr_isSome_iff (f : Fault) : f.addr.isSome = true ↔ f.kind = .outOfBounds := by
  cases f <;> simp [Fault.addr, Fault.kind]

/-- A condition records an operand exactly if it is InvalidRegister (R170). -/
theorem Fault.operand_isSome_iff (f : Fault) :
    f.operand.isSome = true ↔ f.kind = .invalidRegister := by
  cases f <;> simp [Fault.operand, Fault.kind]

/-- Settles O42: the step is fault entry, whose record has its kind's own fields. -/
theorem faultedStepsChangeNothingElse : Obligations.FaultedStepsChangeNothingElse := by
  intro m s t hrun h ht
  obtain ⟨f, rfl⟩ := exists_takeFault_of_stepWith hrun h ht
  exact ⟨faultRecord f s, rfl, rfl, rfl, f.addr_isSome_iff, f.operand_isSome_iff⟩

end Sys2Proof.Machine
end

section
/-! Proofs about the stack: the pairings, and a store seen by the next fetch
(43_stack_call_return.md R146, 20_memory.md R62). -/

namespace Sys2Proof.Machine

/-! ### Where SP ends (R141-R144) -/

theorem effect_push_x (ra : Byte) (s : State) :
    (effect (.push ra) s).x = s.x.set 7 (s.x[7] - 1) :=
  congrArg State.x (decSp_eq s)

theorem effect_call_x (ra : Byte) (s : State) :
    (effect (.call ra) s).x = s.x.set 7 (s.x[7] - 1) :=
  congrArg State.x (decSp_eq s)

theorem effect_ret_x (s : State) : (effect .ret s).x = s.x.set 7 (s.x[7] + 1) :=
  congrArg State.x (incSp_eq _)

theorem wellFormed_pop {ra : Byte} (h : ra.toNat < 8) : (Instr.pop ra).WellFormed :=
  wellFormed_of_regFields_eq_singleton rfl h

/-- POP of the register whose own value is at the top of the stack only moves SP. -/
theorem effect_pop_x_of_top {ra : Byte} {s : State}
    (htop : s.byteAt s.x[7].toNat = reg (regOf ra) s) :
    (effect (.pop ra) s).x = s.x.set 7 (s.x[7] + 1) := by
  have hset : setReg (regOf ra) (s.byteAt s.x[7].toNat).toNat s = s := by
    rw [htop, setReg_toNat, reg]
    simp
  have hpop : effect (.pop ra) s =
      advance .pop (incSp (setReg (regOf ra) (s.byteAt s.x[7].toNat).toNat s)) := rfl
  rw [hpop, hset, incSp_eq]
  rfl

/-! ### The pairings and the fetch -/

/-- Settles O45: PUSH leaves at the top what x[r] then holds, so POP only moves SP back. -/
theorem pushThenPopRestoresRegisters : Obligations.PushThenPopRestoresRegisters := by
  intro s ra hra w
  have hcell : (effect (.push ra) s).byteAt (s.x[7] - 1).toNat =
      reg (regOf ra) (effect (.push ra) s) := by
    rw [byteAt_effect_push w, if_pos rfl]
  have htop : (effect (.push ra) s).byteAt (effect (.push ra) s).x[7].toNat =
      reg (regOf ra) (effect (.push ra) s) := by
    simpa only [effect_push_x, Vector.getElem_set_self] using hcell
  refine ⟨_, _, exec_of_wellFormed (wellFormed_push hra) s,
    exec_of_wellFormed (wellFormed_pop hra) _, ?_, rfl, rfl, regOf ra, regOf_val hra, hcell⟩
  rw [effect_pop_x_of_top htop, effect_push_x, Vector.getElem_set_self, BitVec.sub_add_cancel]
  simp

/-- Settles O46: RET reads the return address that CALL left at the SP both have. -/
theorem callThenReturnResumesAfterTheCall : Obligations.CallThenReturnResumesAfterTheCall := by
  intro s t u v ra hra w hpc hcall hsp hbyte hret
  obtain rfl := next_eq_effect (wellFormed_call hra) hcall
  obtain rfl := next_eq_effect (i := .ret) nofun hret
  have htop : (effect (.call ra) s).x[7] = s.x[7] - 1 := by
    rw [effect_call_x, Vector.getElem_set_self]
  constructor
  · have hpc' : (effect .ret u).pc = (u.byteAt u.x[7].toNat).toNat := rfl
    rw [hpc', hsp, hbyte, htop, byteAt_effect_call w, if_pos rfl, returnAddress_toNat hpc]
  · rw [effect_ret_x, Vector.getElem_set_self, hsp, htop, BitVec.sub_add_cancel]

/-- A fetch that succeeds gives the bytes of the memory at pc, pc + 1 and pc + 2 (R91). -/
theorem eq_byteAt_of_fetch {s : State} {opc op1 op2 : Byte} (h : fetch s = .ok (opc, op1, op2)) :
    opc = s.byteAt s.pc ∧ op1 = s.byteAt (s.pc + 1) ∧ op2 = s.byteAt (s.pc + 2) := by
  rcases Nat.lt_or_ge s.pc 254 with hpc | hpc
  · rw [fetch_ok (by omega)] at h
    cases h
    exact ⟨rfl, rfl, rfl⟩
  · rw [fetch_error hpc] at h
    cases h

/-- Settles O47: the fetch reads the memory, which holds the stored byte at SP - 1. -/
theorem pushedByteIsFetchedNext : Obligations.PushedByteIsFetchedNext := by
  refine ⟨fun s t ra opc op1 op2 hra w h hf => ?_, fun s t ra opc op1 op2 hra w hpc h hf => ?_⟩
  · have hcell := byteAt_of_exec_push hra w h
    obtain ⟨rfl, rfl, rfl⟩ := eq_byteAt_of_fetch hf
    exact ⟨fun e => e ▸ hcell, fun e => e ▸ hcell, fun e => e ▸ hcell⟩
  · have hcell := byteAt_of_exec_call hra w hpc h
    obtain ⟨rfl, rfl, rfl⟩ := eq_byteAt_of_fetch hf
    exact ⟨fun e => e ▸ hcell, fun e => e ▸ hcell, fun e => e ▸ hcell⟩

end Sys2Proof.Machine
end

section
/-! Proofs about the machine invariant: every step keeps it (10_state.md R27, R30, R33;
41_data_and_halt.md R112; 60_exceptions.md R170-R176). -/

namespace Sys2Proof.Machine

/-! ### An instruction's effect keeps the invariant -/

theorem wf_effect_mem {s : State} (w : s.mem.wf = true) (i : Instr) :
    (effect i s).mem.wf = true := by
  by_cases hpush : ∃ ra, i = .push ra
  · obtain ⟨ra, rfl⟩ := hpush
    rw [effect_push_mem]
    exact Memory.wf_write (BitVec.isLt _) _ w
  by_cases hcall : ∃ ra, i = .call ra
  · obtain ⟨ra, rfl⟩ := hcall
    rw [effect_call_mem]
    exact Memory.wf_write (BitVec.isLt _) _ w
  · rwa [effect_mem (fun ra e => hpush ⟨ra, e⟩) fun ra e => hcall ⟨ra, e⟩]

theorem Flags.legal_of_exactlyOne {fl : Flags} (h : fl.exactlyOne = true) : fl.legal = true :=
  decide_eq_true (of_decide_eq_true h).le

theorem legal_effect_flags {s : State} (h : s.flags.legal = true) (i : Instr) :
    (effect i s).flags.legal = true := by
  by_cases hcmp : ∃ ra rb, i = .cmp ra rb
  · obtain ⟨ra, rb, rfl⟩ := hcmp
    exact Flags.legal_of_exactlyOne (compareFlags_exactlyOne _ _)
  · rwa [effect_flags fun ra rb e => hcmp ⟨ra, rb, e⟩]

theorem Op.width_le_three (o : Op) : o.width ≤ 3 := by
  cases o <;> decide

theorem jumpEffect_pc_le {s : State} (h : s.pc ≤ 253) (taken : Bool) (o : Op) (r : RegIdx) :
    (jumpEffect taken o r s).pc ≤ 256 := by
  cases taken
  · exact Nat.add_le_add h (Op.width_le_three o)
  · exact (BitVec.isLt _).le

/-- From a pc that a fetch can have, an instruction advances by at most 3 or goes to a byte. -/
theorem effect_pc_le {s : State} (h : s.pc ≤ 253) (i : Instr) : (effect i s).pc ≤ 256 := by
  cases i with
  | hlt => exact h.trans (by decide)
  | call _ | ret => exact (BitVec.isLt _).le
  | jmp _ | jeq _ | jne _ => exact jumpEffect_pc_le h ..
  | ldi _ _ | mul _ _ | add _ _ | cmp _ _ | prn _ | push _ | pop _ =>
    exact Nat.add_le_add h (Op.width_le_three _)

theorem State.Inv.fault_eq_none {m : OpcodeMap} {s : State} (hs : s.Inv m)
    (hrun : s.run = .running) : s.fault = none := by
  rw [← Option.not_isSome_iff_eq_none, hs.record, hrun]
  exact nofun

theorem effect_inv {m : OpcodeMap} {s : State} (hs : s.Inv m) (hrun : s.run = .running)
    (hpc : s.pc ≤ 253) {i : Instr} (hop : m i.op = s.byteAt s.pc) : (effect i s).Inv m := by
  have hfault : (effect i s).fault = none := (effect_fault i s).trans (hs.fault_eq_none hrun)
  have hrun' : (effect i s).run = .running ∨ (i = .hlt ∧ (effect i s).run = .halted) :=
    hrun ▸ effect_run i s
  refine ⟨wf_effect_mem hs.memory i, legal_effect_flags hs.flags i, effect_pc_le hpc i,
    fun hhalt => ?halted, ?record, fun r hr => ?describes⟩
  case halted =>
    rcases hrun' with hr | ⟨rfl, -⟩
    · cases hr.symm.trans hhalt
    · exact ⟨hpc, hop.symm⟩
  case record =>
    rw [hfault]
    refine ⟨nofun, fun hf => ?_⟩
    rcases hrun' with hr | ⟨-, hr⟩ <;> cases hr.symm.trans hf
  case describes => cases hfault.symm.trans hr

/-! ### Fault entry keeps the invariant -/

theorem takeFault_inv {m : OpcodeMap} {s : State} {f : Fault} (hs : s.Inv m)
    (hf : (faultRecord f s).Describes m s) : (takeFault f s).Inv m where
  memory := hs.memory
  flags := hs.flags
  pc := hs.pc
  halted := nofun
  record := ⟨fun _ => rfl, fun _ => rfl⟩
  describes r hr := by
    obtain rfl : faultRecord f s = r := Option.some.inj hr
    exact hf

/-- The register fields of a decoded instruction are among the operand bytes. -/
theorem mem_regFields_assemble {o : Op} {op1 op2 b : Byte}
    (h : b ∈ (assemble o op1 op2).regFields) : b = op1 ∨ b = op2 := by
  cases o with
  | hlt | ret => cases h
  | mul | add | cmp => simpa [assemble, Instr.regFields] using h
  | _ => exact .inl (List.mem_singleton.mp h)

/-- What fetch and decode raise is true of the state, and so is its record (R171, R172). -/
theorem describes_of_fetchInstr_error {m : OpcodeMap} {s : State} {f : Fault} (hpc : s.pc ≤ 256)
    (h : fetchInstr m s = .error f) : (faultRecord f s).Describes m s := by
  refine ⟨rfl, rfl, ?_⟩
  rcases fetchInstr_cases m s with ⟨hge, hf⟩ | ⟨hle, hno, hf⟩ | ⟨-, o, -, hf⟩
  · cases h.symm.trans hf
    exact ⟨hge, congrArg some (Nat.max_eq_right hpc), rfl⟩
  · cases h.symm.trans hf
    exact ⟨hle, hno, rfl, rfl⟩
  · cases h.symm.trans hf

theorem assemble_of_fetchInstr_ok {m : OpcodeMap} {s : State} {i : Instr}
    (h : fetchInstr m s = .ok i) : s.pc ≤ 253 ∧ ∃ o, m o = s.byteAt s.pc ∧
      i = assemble o (s.byteAt (s.pc + 1)) (s.byteAt (s.pc + 2)) := by
  rcases fetchInstr_cases m s with ⟨-, hf⟩ | ⟨-, -, hf⟩ | ⟨hpc, o, ho, hf⟩
  · cases h.symm.trans hf
  · cases h.symm.trans hf
  · cases h.symm.trans hf
    exact ⟨hpc, o, ho, rfl⟩

/-- Settles O51: what a step can do is nothing, fault entry with a record that tells the truth about
the bytes at pc, or the effect of the instruction these bytes form. -/
theorem stepKeepsTheMachineInvariant : Obligations.StepKeepsTheMachineInvariant := by
  intro m s t hs h
  rcases stepWith_cases h with ⟨-, rfl⟩ | ⟨hrun, f, hf, rfl⟩ | ⟨hrun, i, hf, hx⟩
  · exact hs
  · exact takeFault_inv hs (describes_of_fetchInstr_error hs.pc hf)
  · obtain ⟨hpc, o, ho, rfl⟩ := assemble_of_fetchInstr_ok hf
    rcases exec_cases hx with ⟨-, rfl⟩ | ⟨b, hb, rfl⟩
    · exact effect_inv hs hrun hpc (by rwa [assemble_op])
    · have hbad : 8 ≤ b.toNat := by simpa using List.find?_some hb
      exact takeFault_inv hs ⟨rfl, rfl, hpc, ⟨o, ho⟩, rfl, b, rfl, hbad,
        mem_regFields_assemble (List.mem_of_find?_eq_some hb)⟩

/-! ### Construction meets the invariant (R190, R192) -/

/-- A machine is built exactly where the three checks of R190 and R192 pass. -/
theorem construct_of_legal {c : Config} {image : List Byte} (hc : c.Legal)
    (hlen : image.length ≤ memSize) :
    construct c image = .ok ((initialState c.spInit).withMem (deposit 0 image [])) := by
  obtain ⟨hsp, hmap⟩ := hc
  rw [construct, if_neg hsp, if_neg (not_not.mpr hmap), if_neg (Nat.not_lt.mpr hlen)]

/-- Settles O50, from the checks in their order. -/
theorem constructionRefusals : Obligations.ConstructionRefusals := by
  intro c image
  refine ⟨⟨?_, fun ⟨hc, hlen⟩ => ⟨_, construct_of_legal hc hlen⟩⟩, fun hsp => if_pos hsp,
    fun ⟨hsp, hmap⟩ hlen => ?_⟩
  · rintro ⟨s, hs⟩
    obtain ⟨hc, hlen, -⟩ := construct_ok hs
    exact ⟨hc, hlen⟩
  · rw [construct, if_neg hsp, if_neg (not_not.mpr hmap), if_pos hlen]

/-- Settles O49: the deposit writes memory alone, and the reset state is one construction. -/
theorem constructionInitialValues : Obligations.ConstructionInitialValues := by
  refine ⟨fun c image s h => ?_, rfl, rfl⟩
  obtain ⟨-, -, rfl⟩ := construct_ok h
  exact ⟨rfl, rfl, rfl, rfl, rfl, rfl⟩

/-- Settles O52: the deposit keeps the canonical form; the rest are the initial values. -/
theorem constructedMachinesMeetTheInvariant : Obligations.ConstructedMachinesMeetTheInvariant := by
  intro c image s h
  obtain ⟨-, hlen, rfl⟩ := construct_ok h
  exact {
    memory := Memory.wf_deposit (by omega) Memory.wf_nil
    flags := rfl
    pc := Nat.zero_le 256
    halted := nofun
    record := ⟨nofun, nofun⟩
    describes := nofun }

/-- Settles O53: the reset state is the construction of the default configuration. -/
theorem resetMeetsTheMachineInvariant : Obligations.ResetMeetsTheMachineInvariant :=
  constructedMachinesMeetTheInvariant defaultConfig [] State.reset rfl

end Sys2Proof.Machine
end

section
/-! Proofs about the host interface: request, run and trace (00_scope.md R7,
40_execution_loop.md R99-R101, 60_exceptions.md R178, R184). -/

namespace Sys2Proof.Machine

/-! ### The step request -/

theorem stepWith_stepped (m : OpcodeMap) (s : State) : stepWith m s = .next (stepped m s) := by
  obtain ⟨t, h⟩ := stepWith_next m s
  rw [h, stepped_of_next h]

/-- An instruction appends at most one byte to the output (R35). -/
theorem exec_out_append {i : Instr} {s t : State} (h : exec i s = .next t) :
    ∃ l : List Byte, l.length ≤ 1 ∧ t.out = s.out ++ l := by
  by_cases hprn : ∃ ra, i = .prn ra
  · obtain ⟨ra, rfl⟩ := hprn
    rcases exec_cases h with ⟨-, rfl⟩ | ⟨b, -, rfl⟩
    · exact ⟨[reg (regOf ra) s], le_rfl, rfl⟩
    · exact ⟨[], Nat.zero_le 1, (List.append_nil _).symm⟩
  · exact ⟨[], Nat.zero_le 1, by rw [exec_out (fun ra e => hprn ⟨ra, e⟩) h, List.append_nil]⟩

theorem stepped_out_append (m : OpcodeMap) (s : State) :
    ∃ l : List Byte, l.length ≤ 1 ∧ (stepped m s).out = s.out ++ l := by
  rcases stepWith_cases (stepWith_stepped m s) with ⟨-, h⟩ | ⟨-, f, -, h⟩ | ⟨-, i, -, hx⟩
  · exact ⟨[], Nat.zero_le 1, by rw [h, List.append_nil]⟩
  · exact ⟨[], Nat.zero_le 1, by rw [h, takeFault_out, List.append_nil]⟩
  · exact exec_out_append hx

theorem faultReport_of_stopped {s : State} (h : s.run ≠ .running) (t : State) :
    faultReport s t = none := by
  cases hrun : s.run with
  | running => exact absurd hrun h
  | halted | faulted => simp only [faultReport, hrun]

theorem faultReport_of_running {s : State} (h : s.run = .running) (t : State) :
    faultReport s t = if t.run = .faulted then t.fault else none := by
  simp only [faultReport, h]

/-- A request reports a fault exactly when a Running machine becomes Faulted (R178). -/
theorem report_isSome_iff (m : OpcodeMap) (s : State) :
    (stepRequest m s).report.isSome = true ↔ s.run = .running ∧ (stepped m s).run = .faulted := by
  rw [stepRequest]
  by_cases hrun : s.run = .running
  · rw [faultReport_of_running hrun]
    by_cases hf : (stepped m s).run = .faulted
    · obtain ⟨f, ht⟩ := exists_takeFault_of_stepWith hrun (stepWith_stepped m s) hf
      rw [if_pos hf]
      exact ⟨fun _ => ⟨hrun, hf⟩, fun _ => by rw [ht]; rfl⟩
    · rw [if_neg hf]
      exact ⟨nofun, fun h => absurd h.2 hf⟩
  · rw [faultReport_of_stopped hrun]
    exact ⟨nofun, fun h => absurd h.1 hrun⟩

/-- Settles O54, from the bytes a step appends and from when it enters Faulted, where the next
request changes nothing. -/
theorem stepRequestReply : Obligations.StepRequestReply := by
  intro m s
  obtain ⟨l, hl, hout⟩ := stepped_out_append m s
  have hemitted : (stepRequest m s).emitted = l := by
    rw [stepRequest, hout, List.drop_left]
  refine ⟨?_, hemitted ▸ hl, report_isSome_iff m s, fun h => ?_⟩
  · rw [hemitted]
    exact hout
  · obtain ⟨hrun, hf⟩ := (report_isSome_iff m s).mp h
    have hstop : (stepped m s).run ≠ .running := by
      rw [hf]
      exact nofun
    refine ⟨?_, faultReport_of_stopped hstop _, ?_⟩
    · simp only [stepRequest, State.status, faultReport_of_running hrun, hf, if_true]
    · exact congrArg State.status (stepped_of_stopped m hstop)

/-! ### The run -/

theorem runFor_add (m : OpcodeMap) (n k : Nat) (s : State) :
    runFor m (n + k) s = runFor m k (runFor m n s) := by
  induction n generalizing s with
  | zero => rw [Nat.zero_add, runFor]
  | succ n ih => rw [Nat.succ_add, runFor, runFor, ih]

theorem runFor_of_stopped (m : OpcodeMap) (k : Nat) {s : State} (h : s.run ≠ .running) :
    runFor m k s = s := by
  induction k with
  | zero => rfl
  | succ k ih => rw [runFor, stepped_of_stopped m h, ih]

/-- Settles O55: the later requests are a run of the stopped machine. -/
theorem endedRunsStayEnded : Obligations.EndedRunsStayEnded := by
  intro m n k s h
  rw [runFor_add, runFor_of_stopped m k (of_decide_eq_true h)]

/-! ### The debug trace -/

theorem traceByte_of_lt {a : Nat} (h : a < 256) (s : State) : traceByte s a = some (s.byteAt a) :=
  if_pos h

/-- Settles O56, from what the trace shows at an address in range. -/
theorem debugTraceShowsTheFetchWindow : Obligations.DebugTraceShowsTheFetchWindow := by
  intro c s
  refine ⟨fun h => ?_, fun h => ⟨_, if_pos h, rfl, rfl, fun ha => traceByte_of_lt ha s,
    fun ha => traceByte_of_lt ha s, fun ha => traceByte_of_lt ha s⟩⟩
  rw [debugTrace, h]
  rfl

end Sys2Proof.Machine
end

section
/-! Proofs about the ALU's laws, the packed flags and the codes
(42_alu.md R122, R129; 10_state.md R31, R33). -/

namespace Sys2Proof.Machine

/-- Settles O14: the byte of an integer is its remainder modulo 256. -/
theorem aluSubWraps : Obligations.AluSubWraps := fun _ _ =>
  ⟨_, rfl, ofInt_toNat_eq_emod _⟩

theorem alu_add (a b : Byte) : alu .add a b = .ok (.value (a + b)) :=
  congrArg (fun v => Except.ok (AluResult.value v))
    ((BitVec.ofNat_add _ _).trans (by rw [BitVec.ofNat_toNat, BitVec.ofNat_toNat]; rfl))

theorem alu_mul (a b : Byte) : alu .mul a b = .ok (.value (a * b)) :=
  congrArg (fun v => Except.ok (AluResult.value v))
    ((BitVec.ofNat_mul _ _).trans (by rw [BitVec.ofNat_toNat, BitVec.ofNat_toNat]; rfl))

/-- Settles O17: Add and Mul are the ring operations of the 8-bit words. -/
theorem aluArithmeticLaws : Obligations.AluArithmeticLaws := by
  intro a b c
  simp only [alu_add, alu_mul]
  refine ⟨by rw [BitVec.add_comm], by rw [BitVec.mul_comm], ?_, ?_, by rw [mul_zero],
    by rw [mul_one]⟩
  · rintro _ _ ⟨⟩ ⟨⟩
    rw [BitVec.add_assoc]
  · rintro _ _ ⟨⟩ ⟨⟩
    rw [BitVec.mul_assoc]

theorem Flags.pack_toNat_lt (fl : Flags) : fl.pack.toNat < 2 ^ 3 := by
  obtain ⟨e, g, l⟩ := fl
  revert e g l
  decide

/-- Settles O11: the low bits for each of the eight flag states; the others are 0 by the size. -/
theorem packedFlagsLayout : Obligations.PackedFlagsLayout := by
  intro fl
  have hlow : fl.pack.getLsbD 0 = fl.e ∧ fl.pack.getLsbD 1 = fl.g ∧ fl.pack.getLsbD 2 = fl.l := by
    obtain ⟨e, g, l⟩ := fl
    revert e g l
    decide
  obtain ⟨he, hg, hl⟩ := hlow
  refine ⟨he, hg, hl, fun k hk => ?_⟩
  exact Nat.testBit_lt_two_pow (fl.pack_toNat_lt.trans_le (Nat.pow_le_pow_right Nat.two_pos hk))

/-- Settles O12, from the two tables. -/
theorem faultAndRunCodes : Obligations.FaultAndRunCodes :=
  ⟨rfl, rfl, rfl, rfl, rfl, rfl, rfl, rfl⟩

end Sys2Proof.Machine
end

section
/-! Proofs about programs as R78 writes them: where each line's bytes stand (30_encoding.md). -/

namespace Sys2Proof.Machine

/-- The bytes of lines that follow each other are the bytes of both parts. -/
theorem linesBytes_append {m : OpcodeMap} {address : String → Option Nat} {before rest : List Line}
    {bytes : List Byte} (h : linesBytes m address (before ++ rest) = some bytes) :
    ∃ front back, linesBytes m address before = some front ∧
      linesBytes m address rest = some back ∧ bytes = front ++ back := by
  induction before generalizing bytes with
  | nil => exact ⟨[], bytes, rfl, h, rfl⟩
  | cons l before ih =>
    obtain ⟨first, tail, hfirst, htail, rfl⟩ := linesBytes_cons.mp h
    obtain ⟨front, back, hfront, hback, rfl⟩ := ih htail
    exact ⟨first ++ front, back, linesBytes_cons.mpr ⟨first, front, hfirst, hfront, rfl⟩, hback,
      (List.append_assoc ..).symm⟩

theorem programSize_cons (l : Line) (rest : List Line) :
    programSize (l :: rest) = lineSize l + programSize rest := rfl

theorem linesBytes_length {m : OpcodeMap} {address : String → Option Nat} {lines : List Line}
    {bytes : List Byte} (h : linesBytes m address lines = some bytes) :
    bytes.length = programSize lines := by
  induction lines generalizing bytes with
  | nil => cases h; rfl
  | cons l rest ih =>
    obtain ⟨front, back, hfront, hback, rfl⟩ := linesBytes_cons.mp h
    rw [List.length_append, lineBytes_length hfront, ih hback, programSize_cons]

theorem definedLabels_append (p q : List Line) :
    definedLabels (p ++ q) = definedLabels p ++ definedLabels q := by
  induction p with
  | nil => rfl
  | cons l p ih =>
    cases l with
    | label name => exact congrArg (name :: ·) ih
    | instr _ | ldiLabel _ _ | byte _ => exact ih

theorem mem_definedLabels {name : String} {lines : List Line} (h : Line.label name ∈ lines) :
    name ∈ definedLabels lines := by
  obtain ⟨p, q, rfl⟩ := List.append_of_mem h
  rw [definedLabels_append]
  exact List.mem_append_right _ (.head _)

/-- Where no label is defined twice, a label line repeats none before it. -/
theorem label_notMem_of_nodup {before after : List Line} {name : String}
    (h : (definedLabels (before ++ .label name :: after)).Nodup) : Line.label name ∉ before := by
  intro hmem
  rw [definedLabels_append] at h
  exact List.disjoint_of_nodup_append h (mem_definedLabels hmem) (.head _)

/-- A label not on an earlier line names the address where the lines before it end. -/
theorem labelAddress_append {before after : List Line} {name : String}
    (h : Line.label name ∉ before) (a : Nat) :
    labelAddress a (before ++ .label name :: after) name = some (a + programSize before) := by
  induction before generalizing a with
  | nil => exact if_pos rfl
  | cons l before ih =>
    obtain ⟨hl, hbefore⟩ := not_or.mp (List.mem_cons.not.mp h)
    rw [List.cons_append, labelAddress, if_neg (Ne.symm hl), ih hbefore, programSize_cons,
      Nat.add_assoc]

theorem lineBytes_instr {m : OpcodeMap} {address : String → Option Nat} {i : Instr}
    {bytes : List Byte} (h : lineBytes m address (.instr i) = some bytes) : bytes = encode m i := by
  rw [lineBytes] at h
  split at h <;> cases h
  rfl

theorem lineBytes_ldiLabel {m : OpcodeMap} {address : String → Option Nat} {ra : RegIdx}
    {name : String} {bytes : List Byte} (h : lineBytes m address (.ldiLabel ra name) = some bytes) :
    ∃ a : Byte, address name = some a.toNat ∧ bytes = encode m (.ldi (registerByte ra) a) := by
  rw [lineBytes] at h
  split at h
  next a ha =>
    split at h <;> cases h
    next hlt => exact ⟨BitVec.ofNat 8 a, by rw [ha, BitVec.toNat_ofNat, Nat.mod_eq_of_lt hlt], rfl⟩
  · cases h

/-- Settles O58: the image splits at the line, and its part is what the line's kind gives. -/
theorem programImagePlacesEachLine : Obligations.ProgramImagePlacesEachLine := by
  intro m before after l image h
  rw [programImage] at h
  split at h
  next hnodup =>
    obtain ⟨front, tail, hfront, htail, rfl⟩ := linesBytes_append h
    obtain ⟨bytes, back, hbytes, -, rfl⟩ := linesBytes_cons.mp htail
    have hlen := linesBytes_length hfront
    refine ⟨front, bytes, back, (List.append_assoc ..).symm, hlen, ?_⟩
    cases l with
    | instr i => exact lineBytes_instr hbytes
    | ldiLabel ra name => exact lineBytes_ldiLabel hbytes
    | byte v => exact (Option.some.inj hbytes).symm
    | label name =>
      refine ⟨(Option.some.inj hbytes).symm, ?_⟩
      rw [labelAddress_append (label_notMem_of_nodup hnodup), hlen, Nat.zero_add]
  · cases h

end Sys2Proof.Machine
end
